-- ==== Sys2Proof/Word.lean ====
section
/-! DEFINITION. The widths of the machine: `XLEN`, the word of that width, the byte, the register number. -/

namespace Sys2Proof

/-- The two register widths of the extension (rule R6): `rv32` where the document says RV32, `rv64` where it says
RV64. It is fixed for a run (decision D2). -/
inductive XLen where
  | rv32
  | rv64
  deriving DecidableEq, Repr

/-- `XLEN`, the width in bits of a general register and of the program counter (rule R6). -/
abbrev XLen.bits : XLen → Nat
  | .rv32 => 32
  | .rv64 => 64

/-- A value of `XLEN` bits (rule R8): register contents, the program counter, an address while it is computed. Its
`+` and `*` wrap modulo `2^XLEN`. -/
abbrev Word (x : XLen) := BitVec x.bits

/-- A byte, 8 bits (rule R14). -/
abbrev Byte := BitVec 8

/-- The number of a general register, `x0` to `x31` (rules R20, R72). -/
abbrev Reg := Fin 32

end Sys2Proof
end

