-- ==== Sys2Proof/Config.lean ====
section
/-! DEFINITION. The implementation and launch parameters of rules R5 and R210: everything the spec leaves to the user of
the model, as plain data that a launch state carries and that no instruction changes. -/

namespace Sys2Proof

/-- The evidence tier of an instruction (rule R2): `s` complete in the source, `p` behaviour in the source and part of
the encoding from general knowledge, `g` general knowledge only. -/
inductive Tier where
  | s
  | p
  | g
  deriving DecidableEq, Repr

/-- `ADMIT_TIER` (rules R3, R5): which tiers a run executes. -/
inductive AdmitTier where
  | s
  | sp
  | spg
  deriving DecidableEq, Repr

/-- `ENDIAN` (rules R5, R45): the byte order of data accesses. Instruction fetch is always little-endian (rule R48). -/
inductive Endian where
  | little
  | big
  deriving DecidableEq, Repr

/-- `MISALIGNED_DATA` (rules R5, R47): what a data access at a misaligned address does. -/
inductive MisalignedData where
  | fault
  | split
  deriving DecidableEq, Repr

/-- `IALIGN` (rules R5, R49): the instruction alignment, 16 or 32 bits. -/
inductive IAlign where
  | bits16
  | bits32
  deriving DecidableEq, Repr

/-- `IALIGN/8`, the alignment of a branch target in bytes (rules R49, R121). -/
def IAlign.bytes : IAlign → Nat
  | .bits16 => 2
  | .bits32 => 4

/-- `GP_ULOAD_OFFSET_EXT` (rules R5, R141): how LBUGP, LHUGP and LWUGP extend their offset. -/
inductive OffsetExt where
  | ze
  | se
  deriving DecidableEq, Repr

/-- `LWUGP_ON_RV32` (rules R5, R148). -/
inductive LwugpOnRv32 where
  | legal
  | illegal
  deriving DecidableEq, Repr

/-- The sizes a memory access can have (rules R11, R14, R41): 1, 2, 4 and 8 bytes. -/
inductive AccessSize where
  | byte
  | half
  | word
  | double
  deriving DecidableEq, Repr

/-- The number `n` of bytes of an access (rule R41). -/
abbrev AccessSize.bytes : AccessSize → Nat
  | .byte => 1
  | .half => 2
  | .word => 4
  | .double => 8

/-- `8n`, the width in bits of the value an access moves (rules R41, R42). -/
abbrev AccessSize.bits : AccessSize → Nat
  | .byte => 8
  | .half => 16
  | .word => 32
  | .double => 64

/-- The kind of an access, as `Admit` distinguishes them (rule R43). -/
inductive AccessKind where
  | load
  | store
  | fetch
  deriving DecidableEq, Repr

/-- One entry of the launch memory's verdict `Admit` (rule R43): accesses of this kind and size are admitted at every
address from `first` to `last`, both included. A finite list of entries can say any predicate of rule R5 over a finite
address space (DESIGN CHOICE, log entry 9). -/
structure AdmitRange where
  first : Nat
  last : Nat
  size : AccessSize
  kind : AccessKind
  deriving DecidableEq, Repr

/-- The function codes the source does not print, each a parameter (rules R5, R85, R86, R87, decision D13). -/
structure Codes where
  f2Lbgp : BitVec 2
  f2Lbugp : BitVec 2
  f2Sbgp : BitVec 2
  f3Shgp : BitVec 3
  f3Lhgp : BitVec 3
  f3Ldgp : BitVec 3
  f3Swgp : BitVec 3
  f3Lhugp : BitVec 3
  f3Lwugp : BitVec 3
  f7LeaD : BitVec 7
  f7LeaBZe : BitVec 7
  f7LeaHZe : BitVec 7
  f7LeaWZe : BitVec 7
  f7LeaDZe : BitVec 7
  deriving DecidableEq, Repr

/-- The default values of the function codes (rule R5), the published ones (UNVERIFIED: the spec has them from general
knowledge, log entry 12). -/
def Codes.published : Codes where
  f2Lbgp := 0b00#2
  f2Lbugp := 0b10#2
  f2Sbgp := 0b11#2
  f3Shgp := 0b000#3
  f3Lhgp := 0b001#3
  f3Ldgp := 0b011#3
  f3Swgp := 0b100#3
  f3Lhugp := 0b101#3
  f3Lwugp := 0b110#3
  f7LeaD := 0b0000111#7
  f7LeaBZe := 0b0001000#7
  f7LeaHZe := 0b0001001#7
  f7LeaWZe := 0b0001010#7
  f7LeaDZe := 0b0001011#7

/-- The funct2 codes of Custom-0 in the order of the table of rule R85, with the printed code `01` of ADDIGP. -/
def Codes.custom0 (c : Codes) : List (BitVec 2) :=
  [c.f2Lbgp, 0b01#2, c.f2Lbugp, c.f2Sbgp]

/-- The func3 codes of Custom-1 in the order of the table of rule R86, with the printed codes of LWGP and SDGP. -/
def Codes.custom1 (c : Codes) : List (BitVec 3) :=
  [c.f3Shgp, c.f3Lhgp, 0b010#3, c.f3Ldgp, c.f3Swgp, c.f3Lhugp, c.f3Lwugp, 0b111#3]

/-- The funct7 codes of Custom-2 in the order of the table of rule R87, with the printed codes of LEA.h and LEA.w. -/
def Codes.custom2 (c : Codes) : List (BitVec 7) :=
  [0b0000101#7, 0b0000110#7, c.f7LeaD, c.f7LeaBZe, c.f7LeaHZe, c.f7LeaWZe, c.f7LeaDZe]

/-- The constraint of decision D13: "the codes within one opcode are distinct and differ from the printed ones". -/
abbrev Codes.Distinct (c : Codes) : Prop :=
  c.custom0.Nodup ∧ c.custom1.Nodup ∧ c.custom2.Nodup

/-- The launch parameters of rule R210 and the parameters of rule R5, but for `XLEN`, which is the index of the hart's
type. Rule R210 (b), (d) and (e) (entry address, initial registers, initial bytes) are the start values of the fields of
`Machine.Hart`. -/
structure Launch where
  /-- `ADMIT_TIER` (rule R3). -/
  admitTier : AdmitTier
  /-- `ENDIAN` (rule R45). -/
  endian : Endian
  /-- `MISALIGNED_DATA` (rule R47). -/
  misaligned : MisalignedData
  /-- `IALIGN` (rule R49). -/
  ialign : IAlign
  /-- `GP_ULOAD_OFFSET_EXT` (rule R141). -/
  uloadOffsetExt : OffsetExt
  /-- `LWUGP_ON_RV32` (rule R148). -/
  lwugpOnRv32 : LwugpOnRv32
  /-- The function codes `F2_*`, `F3_*`, `F7_*` (rules R85, R86, R87). -/
  codes : Codes
  /-- `Admit` (rule R43), as a list of entries. -/
  admitRanges : List AdmitRange
  /-- The addresses of the words of the program text, strictly rising (rule R210 (c)); the words themselves are bytes of
  the one address space (rules R32, R48). -/
  text : List Nat
  /-- `END_PC` (rule R216); `none` where the launch names none (log entry 14). -/
  endPc : Option Nat
  deriving DecidableEq, Repr

end Sys2Proof
end

