-- ==== Sys2Proof/Syntax.lean ====
section
/-! DEFINITION. The instructions: one constructor per row of `spec/opcode_table.json`, in the table's order, with the
operands of the row's syntax line (rule R98). -/

namespace Sys2Proof

/-- The 25 instructions in scope (rule R2).

Operands, as rule R98 writes them. `rd`, `rs1`, `rs2` are register numbers (rule R72). `imm` is the immediate field with
the bits the syntax names, its implied low zero bits left out: `imm[17:0]` of the byte forms and ADDIGP (18 bits),
`imm[17:1]`, `imm[18:2]`, `imm[19:3]` of the scaled forms (17 bits each), `imm[10:1]` of the branches (10 bits). `cimm` of
BBC and BBS, `msb` and `lsb` are bit positions (6-bit fields; below 32 on RV32); `cimm` of BEQC and BNEC is the 7-bit
constant. -/
inductive Instr where
  /-- `LBGP Rd, [+ imm[17:0]]` (rule R142). -/
  | lbgp (rd : Reg) (imm : BitVec 18)
  /-- `ADDIGP Rd, imm[17:0]` (rule R110). -/
  | addigp (rd : Reg) (imm : BitVec 18)
  /-- `LBUGP Rd, [+ imm[17:0]]` (rule R143). -/
  | lbugp (rd : Reg) (imm : BitVec 18)
  /-- `SBGP Rs2, [+ imm[17:0]]` (rule R171). -/
  | sbgp (rs2 : Reg) (imm : BitVec 18)
  /-- `SHGP Rs2, [+ (imm[17:1] << 1)]` (rule R173). -/
  | shgp (rs2 : Reg) (imm : BitVec 17)
  /-- `LHGP Rd, [+ (imm[17:1] << 1)]` (rule R144). -/
  | lhgp (rd : Reg) (imm : BitVec 17)
  /-- `LWGP Rd, [+ (imm[18:2] << 2)]` (rule R147). -/
  | lwgp (rd : Reg) (imm : BitVec 17)
  /-- `LDGP Rd, [+ (imm[19:3] << 3)]` (rule R146). -/
  | ldgp (rd : Reg) (imm : BitVec 17)
  /-- `SWGP Rs2, [+ (imm[18:2] << 2)]` (rule R174). -/
  | swgp (rs2 : Reg) (imm : BitVec 17)
  /-- `LHUGP Rd, [+ (imm[17:1] << 1)]` (rule R145). -/
  | lhugp (rd : Reg) (imm : BitVec 17)
  /-- `LWUGP Rd, [+ (imm[18:2] << 2)]` (rule R148). -/
  | lwugp (rd : Reg) (imm : BitVec 17)
  /-- `SDGP Rs2, [+ (imm[19:3] << 3)]` (rule R172). -/
  | sdgp (rs2 : Reg) (imm : BitVec 17)
  /-- `BBC Rs1, #cimm, #imm[10:1]` (rule R122). -/
  | bbc (rs1 : Reg) (cimm : Fin 64) (imm : BitVec 10)
  /-- `BBS Rs1, #cimm, #imm[10:1]` (rule R123). -/
  | bbs (rs1 : Reg) (cimm : Fin 64) (imm : BitVec 10)
  /-- `BEQC Rs1, #cimm[6:0], #imm[10:1]` (rule R124). -/
  | beqc (rs1 : Reg) (cimm : BitVec 7) (imm : BitVec 10)
  /-- `BNEC Rs1, #cimm[6:0], #imm[10:1]` (rule R125). -/
  | bnec (rs1 : Reg) (cimm : BitVec 7) (imm : BitVec 10)
  /-- `BFOZ Rd, Rs1, #msb, #lsb` (rule R133). -/
  | bfoz (rd rs1 : Reg) (msb lsb : Fin 64)
  /-- `BFOS Rd, Rs1, #msb, #lsb` (rule R132). -/
  | bfos (rd rs1 : Reg) (msb lsb : Fin 64)
  /-- `LEA.h Rd, Rs1, Rs2` (rule R161). -/
  | leaH (rd rs1 rs2 : Reg)
  /-- `LEA.w Rd, Rs1, Rs2` (rule R162). -/
  | leaW (rd rs1 rs2 : Reg)
  /-- `LEA.d Rd, Rs1, Rs2` (rule R163). -/
  | leaD (rd rs1 rs2 : Reg)
  /-- `LEA.b.ze Rd, Rs1, Rs2` (rule R164). -/
  | leaBZe (rd rs1 rs2 : Reg)
  /-- `LEA.h.ze Rd, Rs1, Rs2` (rule R166). -/
  | leaHZe (rd rs1 rs2 : Reg)
  /-- `LEA.w.ze Rd, Rs1, Rs2` (rule R167). -/
  | leaWZe (rd rs1 rs2 : Reg)
  /-- `LEA.d.ze Rd, Rs1, Rs2` (rule R168). -/
  | leaDZe (rd rs1 rs2 : Reg)
  deriving DecidableEq, Repr

end Sys2Proof
end

