-- ==== Sys2Proof/WellFormed.lean ====
section
/-! DEFINITION. Which instructions exist at a given `XLEN` (rules R91, R93, R148): the three checks of a well-formed
instruction. The operand ranges that do not depend on `XLEN` are in the operands' types. -/

namespace Sys2Proof

/-- The register width an instruction needs: `true` for the instructions whose Arch line reads "RV64" alone (rule R93:
LDGP, SDGP and the four `.ze` forms). -/
def Instr.rv64Only : Instr → Bool
  | .lbgp _ _ => false
  | .addigp _ _ => false
  | .lbugp _ _ => false
  | .sbgp _ _ => false
  | .shgp _ _ => false
  | .lhgp _ _ => false
  | .lwgp _ _ => false
  | .ldgp _ _ => true
  | .swgp _ _ => false
  | .lhugp _ _ => false
  | .lwugp _ _ => false
  | .sdgp _ _ => true
  | .bbc _ _ _ => false
  | .bbs _ _ _ => false
  | .beqc _ _ _ => false
  | .bnec _ _ _ => false
  | .bfoz _ _ _ _ => false
  | .bfos _ _ _ _ => false
  | .leaH _ _ _ => false
  | .leaW _ _ _ => false
  | .leaD _ _ _ => false
  | .leaBZe _ _ _ => true
  | .leaHZe _ _ _ => true
  | .leaWZe _ _ _ => true
  | .leaDZe _ _ _ => true

/-- The bit positions an instruction names, each a number 0 to `XLEN-1` (rule R89, last two rows). -/
def Instr.positions : Instr → List (Fin 64)
  | .lbgp _ _ => []
  | .addigp _ _ => []
  | .lbugp _ _ => []
  | .sbgp _ _ => []
  | .shgp _ _ => []
  | .lhgp _ _ => []
  | .lwgp _ _ => []
  | .ldgp _ _ => []
  | .swgp _ _ => []
  | .lhugp _ _ => []
  | .lwugp _ _ => []
  | .sdgp _ _ => []
  | .bbc _ cimm _ => [cimm]
  | .bbs _ cimm _ => [cimm]
  | .beqc _ _ _ => []
  | .bnec _ _ _ => []
  | .bfoz _ _ msb lsb => [msb, lsb]
  | .bfos _ _ msb lsb => [msb, lsb]
  | .leaH _ _ _ => []
  | .leaW _ _ _ => []
  | .leaD _ _ _ => []
  | .leaBZe _ _ _ => []
  | .leaHZe _ _ _ => []
  | .leaWZe _ _ _ => []
  | .leaDZe _ _ _ => []

/-- Whether the instruction is LWUGP, whose existence on RV32 is the parameter `LWUGP_ON_RV32` (rule R148). -/
def Instr.isLwugp : Instr → Bool
  | .lwugp _ _ => true
  | .lbgp _ _ => false
  | .addigp _ _ => false
  | .lbugp _ _ => false
  | .sbgp _ _ => false
  | .shgp _ _ => false
  | .lhgp _ _ => false
  | .lwgp _ _ => false
  | .ldgp _ _ => false
  | .swgp _ _ => false
  | .lhugp _ _ => false
  | .sdgp _ _ => false
  | .bbc _ _ _ => false
  | .bbs _ _ _ => false
  | .beqc _ _ _ => false
  | .bnec _ _ _ => false
  | .bfoz _ _ _ _ => false
  | .bfos _ _ _ _ => false
  | .leaH _ _ _ => false
  | .leaW _ _ _ => false
  | .leaD _ _ _ => false
  | .leaBZe _ _ _ => false
  | .leaHZe _ _ _ => false
  | .leaWZe _ _ _ => false
  | .leaDZe _ _ _ => false

/-- Check 1 (rule R93): an RV64-only instruction does not exist on RV32. -/
abbrev Instr.WidthOk (x : XLen) (i : Instr) : Prop :=
  i.rv64Only = true → x = .rv64

/-- Check 2 (rules R89, R91): every bit position is below `XLEN`. -/
abbrev Instr.PositionsOk (x : XLen) (i : Instr) : Prop :=
  ∀ p ∈ i.positions, p.val < x.bits

/-- Check 3 (rule R148): LWUGP exists on RV32 only where `LWUGP_ON_RV32 = legal`. -/
abbrev Instr.LwugpOk (x : XLen) (lw : LwugpOnRv32) (i : Instr) : Prop :=
  i.isLwugp = true → x = .rv64 ∨ lw = .legal

/-- A well-formed instruction: one that exists at this `XLEN` under this `LWUGP_ON_RV32`. -/
abbrev Instr.WellFormed (x : XLen) (lw : LwugpOnRv32) (i : Instr) : Prop :=
  i.WidthOk x ∧ i.PositionsOk x ∧ i.LwugpOk x lw

end Sys2Proof
end

