-- ==== Sys2Proof/Decode.lean ====
section
/-! DEFINITION. Decoding (rule R90), total on any bytes and rejecting by name, and after it the encoder, both from the
format tables of `30_encoding.md`. Bit ranges are written as the spec writes them: `insn.extractLsb hi lo` is
`insn[hi:lo]` (rule R7). -/

namespace Sys2Proof

/-! ## Bytes and words (rules R45, R48) -/

/-- The number a list of bytes stands for in little-endian order: byte `k` holds bits `8k+7 : 8k` (rule R45). -/
def leValue : List Byte → Nat
  | [] => 0
  | b :: bs => b.toNat + 256 * leValue bs

/-- The `n` bytes of a number in little-endian order (rule R45). -/
def leBytes : Nat → Nat → List Byte
  | 0, _ => []
  | n + 1, v => BitVec.ofNat 8 v :: leBytes n (v / 256)

/-- The 32-bit instruction word at the front of some bytes, assembled little-endian (rule R48); `none` where fewer than
four bytes stand there. -/
def wordOfBytes (bs : List Byte) : Option (BitVec 32) :=
  if 4 ≤ bs.length then some (BitVec.ofNat 32 (leValue (bs.take 4))) else none

/-! ## Results of decoding -/

/-- Why a word is `Illegal` (rules R91, R93, R148). -/
inductive IllegalReason where
  /-- a `1` in a bit that the RV32 format prints as `0` (rule R91) -/
  | zeroBitSet
  /-- an RV64-only instruction on RV32 (rule R93) -/
  | rv64Only
  /-- LWUGP on RV32 under `LWUGP_ON_RV32 = illegal` (rule R148) -/
  | lwugpOnRv32
  deriving DecidableEq, Repr

/-- Why a word is `Unknown` (rule R92). -/
inductive UnknownReason where
  /-- fewer than four bytes, so no 32-bit word (rule R70) -/
  | tooShort
  /-- `insn[6:0]` is none of Custom-0, Custom-1, Custom-2 -/
  | majorOpcode
  /-- Custom-0 with an unlisted `insn[13:12]` (only under function codes that are not distinct) -/
  | funct2
  /-- Custom-1 or Custom-2 with an unlisted `insn[14:12]` -/
  | func3
  /-- Custom-2, `insn[14:12] = 000`, with an unlisted `insn[31:25]` -/
  | funct7
  deriving DecidableEq, Repr

/-- What decoding answers: "every word gets exactly one of a row of the table, `Illegal` (rules R91, R93) or `Unknown`
(rule R92)" (rule R90). -/
inductive Decoded where
  | instr (i : Instr)
  | illegal (why : IllegalReason)
  | unknown (why : UnknownReason)
  deriving DecidableEq, Repr

/-! ## Fields (rule R72) -/

/-- `rd = insn[11:7]`. -/
def rdOf (insn : BitVec 32) : Reg := (insn.extractLsb 11 7).toFin

/-- `rs1 = insn[19:15]`. -/
def rs1Of (insn : BitVec 32) : Reg := (insn.extractLsb 19 15).toFin

/-- `rs2 = insn[24:20]`. -/
def rs2Of (insn : BitVec 32) : Reg := (insn.extractLsb 24 20).toFin

/-! ## Immediates (rules R74 to R84): the assembly formula of each format -/

/-- Formats BB and BC (rules R74, R75): `imm[10:1] = {insn[31], insn[29:25], insn[11:8]}`. -/
def immBranch (insn : BitVec 32) : BitVec 10 :=
  insn.extractLsb 31 31 ++ insn.extractLsb 29 25 ++ insn.extractLsb 11 8

/-- Format BB (rule R74): `cimm = {insn[7], insn[24:20]}`; on RV32 `insn[7]` must be 0 (rule R91). -/
def cimmBB (insn : BitVec 32) : Fin 64 :=
  (insn.extractLsb 7 7 ++ insn.extractLsb 24 20 : BitVec 6).toFin

/-- Format BC (rule R75): `cimm = {insn[30], insn[7], insn[24:20]}`. -/
def cimmBC (insn : BitVec 32) : BitVec 7 :=
  insn.extractLsb 30 30 ++ insn.extractLsb 7 7 ++ insn.extractLsb 24 20

/-- Format BF (rule R77): `msb = insn[31:26]`; on RV32 `insn[31]` must be 0 (rule R91). -/
def msbBF (insn : BitVec 32) : Fin 64 := (insn.extractLsb 31 26).toFin

/-- Format BF (rule R77): `lsb = insn[25:20]`; on RV32 `insn[25]` must be 0 (rule R91). -/
def lsbBF (insn : BitVec 32) : Fin 64 := (insn.extractLsb 25 20).toFin

/-- Format GB (rule R78): `imm = {insn[31], insn[16:15], insn[19:17], insn[20], insn[30:21], insn[14]}`. -/
def immGB (insn : BitVec 32) : BitVec 18 :=
  insn.extractLsb 31 31 ++ insn.extractLsb 16 15 ++ insn.extractLsb 19 17 ++ insn.extractLsb 20 20 ++
    insn.extractLsb 30 21 ++ insn.extractLsb 14 14

/-- Format GSB (rule R79): `imm = {insn[31], insn[16:15], insn[19:17], insn[7], insn[30:25], insn[11:8], insn[14]}`. -/
def immGSB (insn : BitVec 32) : BitVec 18 :=
  insn.extractLsb 31 31 ++ insn.extractLsb 16 15 ++ insn.extractLsb 19 17 ++ insn.extractLsb 7 7 ++
    insn.extractLsb 30 25 ++ insn.extractLsb 11 8 ++ insn.extractLsb 14 14

/-- Format GH (rule R80): `imm[17:1] = {insn[31], insn[16:15], insn[19:17], insn[20], insn[30:21]}`. -/
def immGH (insn : BitVec 32) : BitVec 17 :=
  insn.extractLsb 31 31 ++ insn.extractLsb 16 15 ++ insn.extractLsb 19 17 ++ insn.extractLsb 20 20 ++
    insn.extractLsb 30 21

/-- Format GW (rule R81): `imm[18:2] = {insn[31], insn[21], insn[16:15], insn[19:17], insn[20], insn[30:22]}`. -/
def immGW (insn : BitVec 32) : BitVec 17 :=
  insn.extractLsb 31 31 ++ insn.extractLsb 21 21 ++ insn.extractLsb 16 15 ++ insn.extractLsb 19 17 ++
    insn.extractLsb 20 20 ++ insn.extractLsb 30 22

/-- Format GD (rule R82): `imm[19:3] = {insn[31], insn[22:21], insn[16:15], insn[19:17], insn[20], insn[30:23]}`. -/
def immGD (insn : BitVec 32) : BitVec 17 :=
  insn.extractLsb 31 31 ++ insn.extractLsb 22 21 ++ insn.extractLsb 16 15 ++ insn.extractLsb 19 17 ++
    insn.extractLsb 20 20 ++ insn.extractLsb 30 23

/-- Format GSD (rule R83):
`imm[19:3] = {insn[31], insn[9:8], insn[16:15], insn[19:17], insn[7], insn[30:25], insn[11:10]}`. -/
def immGSD (insn : BitVec 32) : BitVec 17 :=
  insn.extractLsb 31 31 ++ insn.extractLsb 9 8 ++ insn.extractLsb 16 15 ++ insn.extractLsb 19 17 ++
    insn.extractLsb 7 7 ++ insn.extractLsb 30 25 ++ insn.extractLsb 11 10

/-- Format GSH (rule R84): `imm[17:1] = {insn[31], insn[16:15], insn[19:17], insn[7], insn[30:25], insn[11:8]}`. -/
def immGSH (insn : BitVec 32) : BitVec 17 :=
  insn.extractLsb 31 31 ++ insn.extractLsb 16 15 ++ insn.extractLsb 19 17 ++ insn.extractLsb 7 7 ++
    insn.extractLsb 30 25 ++ insn.extractLsb 11 8

/-- Format GSW (rule R84):
`imm[18:2] = {insn[31], insn[8], insn[16:15], insn[19:17], insn[7], insn[30:25], insn[11:9]}`. -/
def immGSW (insn : BitVec 32) : BitVec 17 :=
  insn.extractLsb 31 31 ++ insn.extractLsb 8 8 ++ insn.extractLsb 16 15 ++ insn.extractLsb 19 17 ++
    insn.extractLsb 7 7 ++ insn.extractLsb 30 25 ++ insn.extractLsb 11 9

/-! ## The decode procedure (rule R90) -/

/-- An instruction that exists on RV64 only is `Illegal` on RV32 (rule R93). -/
def decodeRv64Only (x : XLen) (i : Instr) : Decoded :=
  match x with
  | .rv32 => .illegal .rv64Only
  | .rv64 => .instr i

/-- An instruction with bits that the RV32 format prints as `0` is `Illegal` on RV32 when one of them is `1` (rule
R91). -/
def decodeZeroBits (x : XLen) (bits : List Bool) (i : Instr) : Decoded :=
  match x with
  | .rv32 => if bits.any id then .illegal .zeroBitSet else .instr i
  | .rv64 => .instr i

/-- LWUGP is `Illegal` on RV32 under `LWUGP_ON_RV32 = illegal` (rules R148, R182). -/
def decodeLwugp (x : XLen) (lw : LwugpOnRv32) (i : Instr) : Decoded :=
  match x, lw with
  | .rv32, .illegal => .illegal .lwugpOnRv32
  | .rv32, .legal => .instr i
  | .rv64, _ => .instr i

/-- Step (2) of rule R90: Custom-0 by `insn[13:12]` (rule R85). -/
def decodeCustom0 (c : Codes) (insn : BitVec 32) : Decoded :=
  let f2 := insn.extractLsb 13 12
  if f2 = 0b01#2 then .instr (.addigp (rdOf insn) (immGB insn))
  else if f2 = c.f2Lbgp then .instr (.lbgp (rdOf insn) (immGB insn))
  else if f2 = c.f2Lbugp then .instr (.lbugp (rdOf insn) (immGB insn))
  else if f2 = c.f2Sbgp then .instr (.sbgp (rs2Of insn) (immGSB insn))
  else .unknown .funct2

/-- Step (3) of rule R90: Custom-1 by `insn[14:12]` (rule R86). -/
def decodeCustom1 (x : XLen) (lw : LwugpOnRv32) (c : Codes) (insn : BitVec 32) : Decoded :=
  let f3 := insn.extractLsb 14 12
  if f3 = 0b010#3 then .instr (.lwgp (rdOf insn) (immGW insn))
  else if f3 = 0b111#3 then decodeRv64Only x (.sdgp (rs2Of insn) (immGSD insn))
  else if f3 = c.f3Shgp then .instr (.shgp (rs2Of insn) (immGSH insn))
  else if f3 = c.f3Lhgp then .instr (.lhgp (rdOf insn) (immGH insn))
  else if f3 = c.f3Ldgp then decodeRv64Only x (.ldgp (rdOf insn) (immGD insn))
  else if f3 = c.f3Swgp then .instr (.swgp (rs2Of insn) (immGSW insn))
  else if f3 = c.f3Lhugp then .instr (.lhugp (rdOf insn) (immGH insn))
  else if f3 = c.f3Lwugp then decodeLwugp x lw (.lwugp (rdOf insn) (immGW insn))
  else .unknown .func3

/-- The LEA group of step (4) of rule R90: Custom-2 with `insn[14:12] = 000`, by `insn[31:25]` (rules R87, R88). -/
def decodeLea (x : XLen) (c : Codes) (insn : BitVec 32) : Decoded :=
  let f7 := insn.extractLsb 31 25
  if f7 = 0b0000101#7 then .instr (.leaH (rdOf insn) (rs1Of insn) (rs2Of insn))
  else if f7 = 0b0000110#7 then .instr (.leaW (rdOf insn) (rs1Of insn) (rs2Of insn))
  else if f7 = c.f7LeaD then .instr (.leaD (rdOf insn) (rs1Of insn) (rs2Of insn))
  else if f7 = c.f7LeaBZe then decodeRv64Only x (.leaBZe (rdOf insn) (rs1Of insn) (rs2Of insn))
  else if f7 = c.f7LeaHZe then decodeRv64Only x (.leaHZe (rdOf insn) (rs1Of insn) (rs2Of insn))
  else if f7 = c.f7LeaWZe then decodeRv64Only x (.leaWZe (rdOf insn) (rs1Of insn) (rs2Of insn))
  else if f7 = c.f7LeaDZe then decodeRv64Only x (.leaDZe (rdOf insn) (rs1Of insn) (rs2Of insn))
  else .unknown .funct7

/-- Step (4) of rule R90: Custom-2 by `insn[14:12]` (rule R87), with the zero bits of rule R91. -/
def decodeCustom2 (x : XLen) (c : Codes) (insn : BitVec 32) : Decoded :=
  let f3 := insn.extractLsb 14 12
  if f3 = 0b000#3 then decodeLea x c insn
  else if f3 = 0b010#3 then
    decodeZeroBits x [insn.getLsbD 31, insn.getLsbD 25] (.bfoz (rdOf insn) (rs1Of insn) (msbBF insn) (lsbBF insn))
  else if f3 = 0b011#3 then
    decodeZeroBits x [insn.getLsbD 31, insn.getLsbD 25] (.bfos (rdOf insn) (rs1Of insn) (msbBF insn) (lsbBF insn))
  else if f3 = 0b101#3 then .instr (.beqc (rs1Of insn) (cimmBC insn) (immBranch insn))
  else if f3 = 0b110#3 then .instr (.bnec (rs1Of insn) (cimmBC insn) (immBranch insn))
  else if f3 = 0b111#3 then
    decodeZeroBits x [insn.getLsbD 7]
      (if insn.getLsbD 30 then .bbs (rs1Of insn) (cimmBB insn) (immBranch insn)
       else .bbc (rs1Of insn) (cimmBB insn) (immBranch insn))
  else .unknown .func3

/-- The decode procedure of rule R90 for a 32-bit word at a given `XLEN`, under the parameters `LWUGP_ON_RV32` and the
function codes. Where the codes are not distinct the printed code wins, then the order of the tables (log entry 12). -/
def decode (x : XLen) (lw : LwugpOnRv32) (c : Codes) (insn : BitVec 32) : Decoded :=
  let major := insn.extractLsb 6 0
  if major = 0b0001011#7 then decodeCustom0 c insn
  else if major = 0b0101011#7 then decodeCustom1 x lw c insn
  else if major = 0b1011011#7 then decodeCustom2 x c insn
  else .unknown .majorOpcode

/-- Decoding of the bytes at an address: the first four of them are the word (rules R48, R70). -/
def decodeBytes (x : XLen) (lw : LwugpOnRv32) (c : Codes) (bs : List Byte) : Decoded :=
  match wordOfBytes bs with
  | some insn => decode x lw c insn
  | none => .unknown .tooShort

/-! ## The encoder, from the same tables -/

/-- A register number as a 5-bit field (rule R72). -/
def regBits (r : Reg) : BitVec 5 := BitVec.ofFin r

/-- A bit position as a 6-bit field (rules R74, R77). -/
def posBits (p : Fin 64) : BitVec 6 := BitVec.ofFin p

/-- Format BB (rule R74). `bit30` is 0 for BBC and 1 for BBS. -/
def encBB (bit30 : BitVec 1) (rs1 : Reg) (cimm : Fin 64) (field : BitVec 10) : BitVec 32 :=
  let imm : BitVec 11 := field ++ 0#1
  imm.extractLsb 10 10 ++ bit30 ++ imm.extractLsb 9 5 ++ (posBits cimm).extractLsb 4 0 ++ regBits rs1 ++ 0b111#3 ++
    imm.extractLsb 4 1 ++ (posBits cimm).extractLsb 5 5 ++ 0b1011011#7

/-- Format BC (rule R75). -/
def encBC (f3 : BitVec 3) (rs1 : Reg) (cimm : BitVec 7) (field : BitVec 10) : BitVec 32 :=
  let imm : BitVec 11 := field ++ 0#1
  imm.extractLsb 10 10 ++ cimm.extractLsb 6 6 ++ imm.extractLsb 9 5 ++ cimm.extractLsb 4 0 ++ regBits rs1 ++ f3 ++
    imm.extractLsb 4 1 ++ cimm.extractLsb 5 5 ++ 0b1011011#7

/-- Format BF (rule R77). -/
def encBF (f3 : BitVec 3) (rd rs1 : Reg) (msb lsb : Fin 64) : BitVec 32 :=
  posBits msb ++ posBits lsb ++ regBits rs1 ++ f3 ++ regBits rd ++ 0b1011011#7

/-- Format R (rule R88). -/
def encR (f7 : BitVec 7) (rd rs1 rs2 : Reg) : BitVec 32 :=
  f7 ++ regBits rs2 ++ regBits rs1 ++ 0b000#3 ++ regBits rd ++ 0b1011011#7

/-- Format GB (rule R78). -/
def encGB (f2 : BitVec 2) (rd : Reg) (imm : BitVec 18) : BitVec 32 :=
  imm.extractLsb 17 17 ++ imm.extractLsb 10 1 ++ imm.extractLsb 11 11 ++ imm.extractLsb 14 12 ++
    imm.extractLsb 16 15 ++ imm.extractLsb 0 0 ++ f2 ++ regBits rd ++ 0b0001011#7

/-- Format GSB (rule R79). -/
def encGSB (f2 : BitVec 2) (rs2 : Reg) (imm : BitVec 18) : BitVec 32 :=
  imm.extractLsb 17 17 ++ imm.extractLsb 10 5 ++ regBits rs2 ++ imm.extractLsb 14 12 ++ imm.extractLsb 16 15 ++
    imm.extractLsb 0 0 ++ f2 ++ imm.extractLsb 4 1 ++ imm.extractLsb 11 11 ++ 0b0001011#7

/-- Format GH (rule R80). -/
def encGH (f3 : BitVec 3) (rd : Reg) (field : BitVec 17) : BitVec 32 :=
  let imm : BitVec 18 := field ++ 0#1
  imm.extractLsb 17 17 ++ imm.extractLsb 10 1 ++ imm.extractLsb 11 11 ++ imm.extractLsb 14 12 ++
    imm.extractLsb 16 15 ++ f3 ++ regBits rd ++ 0b0101011#7

/-- Format GW (rule R81). -/
def encGW (f3 : BitVec 3) (rd : Reg) (field : BitVec 17) : BitVec 32 :=
  let imm : BitVec 19 := field ++ 0#2
  imm.extractLsb 18 18 ++ imm.extractLsb 10 2 ++ imm.extractLsb 17 17 ++ imm.extractLsb 11 11 ++
    imm.extractLsb 14 12 ++ imm.extractLsb 16 15 ++ f3 ++ regBits rd ++ 0b0101011#7

/-- Format GD (rule R82). -/
def encGD (f3 : BitVec 3) (rd : Reg) (field : BitVec 17) : BitVec 32 :=
  let imm : BitVec 20 := field ++ 0#3
  imm.extractLsb 19 19 ++ imm.extractLsb 10 3 ++ imm.extractLsb 18 17 ++ imm.extractLsb 11 11 ++
    imm.extractLsb 14 12 ++ imm.extractLsb 16 15 ++ f3 ++ regBits rd ++ 0b0101011#7

/-- Format GSD (rule R83). -/
def encGSD (f3 : BitVec 3) (rs2 : Reg) (field : BitVec 17) : BitVec 32 :=
  let imm : BitVec 20 := field ++ 0#3
  imm.extractLsb 19 19 ++ imm.extractLsb 10 5 ++ regBits rs2 ++ imm.extractLsb 14 12 ++ imm.extractLsb 16 15 ++ f3 ++
    imm.extractLsb 4 3 ++ imm.extractLsb 18 17 ++ imm.extractLsb 11 11 ++ 0b0101011#7

/-- Format GSH (rule R84). -/
def encGSH (f3 : BitVec 3) (rs2 : Reg) (field : BitVec 17) : BitVec 32 :=
  let imm : BitVec 18 := field ++ 0#1
  imm.extractLsb 17 17 ++ imm.extractLsb 10 5 ++ regBits rs2 ++ imm.extractLsb 14 12 ++ imm.extractLsb 16 15 ++ f3 ++
    imm.extractLsb 4 1 ++ imm.extractLsb 11 11 ++ 0b0101011#7

/-- Format GSW (rule R84). -/
def encGSW (f3 : BitVec 3) (rs2 : Reg) (field : BitVec 17) : BitVec 32 :=
  let imm : BitVec 19 := field ++ 0#2
  imm.extractLsb 18 18 ++ imm.extractLsb 10 5 ++ regBits rs2 ++ imm.extractLsb 14 12 ++ imm.extractLsb 16 15 ++ f3 ++
    imm.extractLsb 4 2 ++ imm.extractLsb 17 17 ++ imm.extractLsb 11 11 ++ 0b0101011#7

/-- The word of an instruction, under the given function codes (rules R73 to R88). -/
def encode (c : Codes) : Instr → BitVec 32
  | .lbgp rd imm => encGB c.f2Lbgp rd imm
  | .addigp rd imm => encGB 0b01#2 rd imm
  | .lbugp rd imm => encGB c.f2Lbugp rd imm
  | .sbgp rs2 imm => encGSB c.f2Sbgp rs2 imm
  | .shgp rs2 imm => encGSH c.f3Shgp rs2 imm
  | .lhgp rd imm => encGH c.f3Lhgp rd imm
  | .lwgp rd imm => encGW 0b010#3 rd imm
  | .ldgp rd imm => encGD c.f3Ldgp rd imm
  | .swgp rs2 imm => encGSW c.f3Swgp rs2 imm
  | .lhugp rd imm => encGH c.f3Lhugp rd imm
  | .lwugp rd imm => encGW c.f3Lwugp rd imm
  | .sdgp rs2 imm => encGSD 0b111#3 rs2 imm
  | .bbc rs1 cimm imm => encBB 0#1 rs1 cimm imm
  | .bbs rs1 cimm imm => encBB 1#1 rs1 cimm imm
  | .beqc rs1 cimm imm => encBC 0b101#3 rs1 cimm imm
  | .bnec rs1 cimm imm => encBC 0b110#3 rs1 cimm imm
  | .bfoz rd rs1 msb lsb => encBF 0b010#3 rd rs1 msb lsb
  | .bfos rd rs1 msb lsb => encBF 0b011#3 rd rs1 msb lsb
  | .leaH rd rs1 rs2 => encR 0b0000101#7 rd rs1 rs2
  | .leaW rd rs1 rs2 => encR 0b0000110#7 rd rs1 rs2
  | .leaD rd rs1 rs2 => encR c.f7LeaD rd rs1 rs2
  | .leaBZe rd rs1 rs2 => encR c.f7LeaBZe rd rs1 rs2
  | .leaHZe rd rs1 rs2 => encR c.f7LeaHZe rd rs1 rs2
  | .leaWZe rd rs1 rs2 => encR c.f7LeaWZe rd rs1 rs2
  | .leaDZe rd rs1 rs2 => encR c.f7LeaDZe rd rs1 rs2

/-! ## Tiers and mnemonics -/

/-- The evidence tier of each instruction (rule R2, `"provenance"` of the opcode table). -/
def Instr.tier : Instr → Tier
  | .lbgp _ _ => .p
  | .addigp _ _ => .s
  | .lbugp _ _ => .p
  | .sbgp _ _ => .p
  | .shgp _ _ => .p
  | .lhgp _ _ => .p
  | .lwgp _ _ => .s
  | .ldgp _ _ => .p
  | .swgp _ _ => .g
  | .lhugp _ _ => .p
  | .lwugp _ _ => .p
  | .sdgp _ _ => .s
  | .bbc _ _ _ => .s
  | .bbs _ _ _ => .s
  | .beqc _ _ _ => .s
  | .bnec _ _ _ => .s
  | .bfoz _ _ _ _ => .s
  | .bfos _ _ _ _ => .s
  | .leaH _ _ _ => .s
  | .leaW _ _ _ => .s
  | .leaD _ _ _ => .g
  | .leaBZe _ _ _ => .g
  | .leaHZe _ _ _ => .g
  | .leaWZe _ _ _ => .g
  | .leaDZe _ _ _ => .g

/-- The mnemonic of each instruction, as the opcode table spells it (rule R97); the name a refusal by tier reports. -/
def Instr.mnemonic : Instr → String
  | .lbgp _ _ => "LBGP"
  | .addigp _ _ => "ADDIGP"
  | .lbugp _ _ => "LBUGP"
  | .sbgp _ _ => "SBGP"
  | .shgp _ _ => "SHGP"
  | .lhgp _ _ => "LHGP"
  | .lwgp _ _ => "LWGP"
  | .ldgp _ _ => "LDGP"
  | .swgp _ _ => "SWGP"
  | .lhugp _ _ => "LHUGP"
  | .lwugp _ _ => "LWUGP"
  | .sdgp _ _ => "SDGP"
  | .bbc _ _ _ => "BBC"
  | .bbs _ _ _ => "BBS"
  | .beqc _ _ _ => "BEQC"
  | .bnec _ _ _ => "BNEC"
  | .bfoz _ _ _ _ => "BFOZ"
  | .bfos _ _ _ _ => "BFOS"
  | .leaH _ _ _ => "LEA.h"
  | .leaW _ _ _ => "LEA.w"
  | .leaD _ _ _ => "LEA.d"
  | .leaBZe _ _ _ => "LEA.b.ze"
  | .leaHZe _ _ _ => "LEA.h.ze"
  | .leaWZe _ _ _ => "LEA.w.ze"
  | .leaDZe _ _ _ => "LEA.d.ze"

/-- Whether `ADMIT_TIER` admits a tier (rule R3). -/
def AdmitTier.admits : AdmitTier → Tier → Bool
  | .s, .s => true
  | .s, .p => false
  | .s, .g => false
  | .sp, .s => true
  | .sp, .p => true
  | .sp, .g => false
  | .spg, .s => true
  | .spg, .p => true
  | .spg, .g => true

/-! ## The host's reading of one word -/

/-- The instruction the decoder reads from a row's bits `w` (numbered as the opcode table numbers them, every bit above
`nbits` zero), laid out little-endian as the hardware stores them: at `XLEN = 64`, where every row exists, under
`LWUGP_ON_RV32 = legal` and the published function codes (the defaults of rule R5). -/
def decodeTableWord (nbits w : Nat) : Option Instr :=
  match decodeBytes .rv64 .legal .published (leBytes 4 (w % 2 ^ nbits)) with
  | .instr i => some i
  | .illegal _ => none
  | .unknown _ => none

end Sys2Proof
end

