-- ==== Sys2Proof/Machine/State.lean ====
section
/-! DEFINITION. The state of the machine (rules R20 to R34, R210), the reasons a step can stop (rules R182, R201), and
the state after reset. -/

namespace Sys2Proof.Machine

/-- The faults of rule R182, each with the `pc` of the instruction that raised it and the recorded value `info` of rule
R185. A fault is terminal and precise: "The faulting instruction changes nothing" (rule R181). Every constructor is SAFE
where the hardware goes on (a core that handles the condition, log entry 15): the model stops and says no more. -/
inductive Fault where
  /-- Code 0. Raised by BBC, BBS, BEQC, BNEC, taken to a target that is no multiple of `IALIGN/8` (rule R121); `info` is
  the target. Safe. -/
  | instructionAddressMisaligned (pc info : Nat)
  /-- Code 1. Raised by the fetch of any instruction at an address that is not admitted for fetch or holds no word of the
  program text (rules R183, R216); `info` is `pc`. Safe. -/
  | instructionAccessFault (pc info : Nat)
  /-- Code 2. Raised by decoding an `Illegal` word, and by the meaning of an instruction that does not exist at this
  `XLEN` (rules R91, R93, R148); `info` is the instruction word. Safe. -/
  | illegalInstruction (pc info : Nat)
  /-- Code 4. Raised by LHGP, LHUGP, LWGP, LWUGP, LDGP at a misaligned address under `MISALIGNED_DATA = fault` (rule
  R47); `info` is the effective address. Safe. -/
  | loadAddressMisaligned (pc info : Nat)
  /-- Code 5. Raised by the seven loads at an address that is not admitted (rule R41); `info` is the effective address.
  Safe. -/
  | loadAccessFault (pc info : Nat)
  /-- Code 6. Raised by SHGP, SWGP, SDGP at a misaligned address under `MISALIGNED_DATA = fault` (rule R47); `info` is
  the effective address. Safe. -/
  | storeAddressMisaligned (pc info : Nat)
  /-- Code 7. Raised by the four stores at an address that is not admitted (rule R42); `info` is the effective address.
  Safe. -/
  | storeAccessFault (pc info : Nat)
  deriving DecidableEq, Repr

/-- The refusals of rule R201: "the model says nothing about this run". All are SAFE: no claim about the hardware follows
from one. -/
inductive Refusal where
  /-- An instruction whose arm of `exec` has no meaning yet. No arm of this model raises it. Safe. -/
  | notModelled (mnemonic : String)
  /-- Raised by decoding a word that no listed instruction claims (rule R92): the list is partial, so the word is neither
  illegal nor a no-op. Safe. -/
  | unknownEncoding (insn : BitVec 32) (why : UnknownReason)
  /-- Raised by `step` for an instruction whose tier `ADMIT_TIER` does not admit (rules R3, R183). Safe. -/
  | tierNotAdmitted (mnemonic : String)
  /-- Raised by a load or a fetch of bytes of which one holds no value (rules R201, R210 (e)); the number is the lowest
  address of the access. Safe. -/
  | noValueInMemory (addr : Nat)
  /-- Raised by a store whose bytes overlap the program text (rule R56); the number is the effective address. Safe. -/
  | storeOverlapsText (addr : Nat)
  /-- Raised by a data access or a fetch whose bytes pass the top of the address space (rules R41, R42); the number is the
  lowest address of the access. Safe. -/
  | wrapsAddressSpace (addr : Nat)
  deriving DecidableEq, Repr

/-- The bytes of the one address space that hold a value, by address (rule R32), in the canonical form of `Memory.Wf`:
addresses strictly rising. A byte that is not listed holds no value (rules R34, R210 (e), log entry 4). -/
abbrev Memory := List Host.Cell

/-- One hardware thread (rule R198) at a fixed `XLEN`: all the state the spec gives the machine, and the launch
parameters of the run. There are no flags (rule R29), no control and status registers (rule R30), no other register file
(rule R31) and no hidden state (rule R33). -/
structure Hart (x : XLen) where
  /-- The general registers (rule R20). Slot 0 is never read: `x0` reads as zero and ignores writes (rule R21). -/
  regs : Vector (Word x) 32
  /-- The program counter (rule R26). -/
  pc : Word x
  /-- The memory (rule R32). -/
  mem : Memory
  /-- The launch parameters (rules R5, R210). -/
  launch : Launch
  deriving DecidableEq, Repr

/-- The state of the machine: its register width (rule R6, a launch parameter by rule R210 (a)) and the hart of that
width. -/
structure State where
  xlen : XLen
  hart : Hart xlen
  deriving DecidableEq, Repr

/-- One entry of `Admit` for every address. -/
def admitEverywhere (size : AccessSize) (kind : AccessKind) : AdmitRange :=
  { first := 0, last := 2 ^ 64 - 1, size := size, kind := kind }

/-- The launch parameters of the state after reset. Where rule R5 gives a default, it is that default (`ADMIT_TIER`,
`ENDIAN`, `MISALIGNED_DATA`, `GP_ULOAD_OFFSET_EXT`, `LWUGP_ON_RV32` and the function codes; UNVERIFIED, log entries 5, 6,
7, 10, 11, 12). Where it gives none, the value is this model's choice (`IALIGN`, `Admit`, the program text, `END_PC`;
DESIGN CHOICE, log entries 8, 9, 13, 14). -/
def resetLaunch : Launch where
  admitTier := .sp
  endian := .little
  misaligned := .fault
  ialign := .bits16
  uloadOffsetExt := .ze
  lwugpOnRv32 := .legal
  codes := .published
  admitRanges :=
    [ admitEverywhere .byte .load, admitEverywhere .half .load, admitEverywhere .word .load,
      admitEverywhere .double .load, admitEverywhere .byte .store, admitEverywhere .half .store,
      admitEverywhere .word .store, admitEverywhere .double .store, admitEverywhere .word .fetch ]
  text := []
  endPc := none

/-- The machine right after reset. The spec gives no reset value for any state (rules R34, R211): `XLEN = 64` (log entry
1), every register zero (log entry 2), the pc zero (log entry 3) and no byte of memory with a value (log entry 4) are
DESIGN CHOICE; the launch parameters are `resetLaunch`. -/
def State.reset : State where
  xlen := .rv64
  hart :=
    { regs := Vector.replicate 32 0
      pc := 0
      mem := []
      launch := resetLaunch }

end Sys2Proof.Machine
end

