-- ==== Sys2Proof/Machine/Ops.lean ====
section
/-! DEFINITION. The shared operations: raising a fault, the registers, the program counter, and the two memory access
primitives of `20_memory.md`. -/

namespace Sys2Proof

/-! ## What the launch parameters say of an access -/

/-- `Admit(addr, n, kind)` (rule R43): the launch memory's verdict. -/
def Launch.admits (l : Launch) (kind : AccessKind) (size : AccessSize) (addr : Nat) : Bool :=
  l.admitRanges.any fun r =>
    decide (r.kind = kind) && decide (r.size = size) && decide (r.first ≤ addr) && decide (addr ≤ r.last)

/-- A misaligned access under `MISALIGNED_DATA = split` is `n` byte accesses, "each subject to `Admit`" (rule R47). -/
def Launch.admitsBytes (l : Launch) (kind : AccessKind) (addr : Nat) : Nat → Bool
  | 0 => true
  | n + 1 => l.admits kind .byte addr && l.admitsBytes kind (addr + 1) n

/-- Whether some of the bytes `addr .. addr+n-1` belong to a word of the program text (rule R56). -/
def Launch.overlapsText (l : Launch) (addr n : Nat) : Bool :=
  l.text.any fun t => decide (t < addr + n) && decide (addr < t + 4)

end Sys2Proof

namespace Sys2Proof.Machine

/-- What an operation answers: a value, a fault or a refusal (rule R201). -/
abbrev Result (α : Type) := Host.Outcome α Fault Refusal

/-- Go on with the value of an operation; a fault or a refusal ends the instruction (rule R11). -/
def andThen {α β : Type} (r : Result α) (k : α → Result β) : Result β :=
  match r with
  | .next a => k a
  | .fault f => .fault f
  | .refused e => .refused e

/-- Run a meaning, written for a hart of any width, on the machine's hart. -/
def State.onHart (s : State) (f : Hart s.xlen → Result (Hart s.xlen)) : Result State :=
  andThen (f s.hart) fun h => .next ⟨s.xlen, h⟩

/-! ## Taking an exception (rule R181)

`raise F(info)` ends the run with the terminal outcome `Fault(F, pc, info)` and changes nothing. The spec gives no trap
entry and no return from a trap (rules R191, R192), so there is no state to save into and nothing to return to (log entry
15). -/

/-- `raise F(info)`: the outcome carries the pc of the instruction that raised it. -/
def Hart.raise {x : XLen} {α : Type} (h : Hart x) (fault : Nat → Nat → Fault) (info : Nat) : Result α :=
  .fault (fault h.pc.toNat info)

/-- `raise IllegalInstruction(insn)` from the meaning of an instruction, whose word is its encoding (log entry 20). -/
def Hart.raiseIllegal {x : XLen} {α : Type} (h : Hart x) (i : Instr) : Result α :=
  h.raise .illegalInstruction (encode h.launch.codes i).toNat

/-- `if XLEN == 32 then raise IllegalInstruction(insn)` (rules R93, R146, R165, R172). -/
def Hart.onlyRv64 {x : XLen} (h : Hart x) (i : Instr) (k : Result (Hart x)) : Result (Hart x) :=
  if x = .rv32 then h.raiseIllegal i else k

/-- A bit position of 32 or more does not exist on RV32: `raise IllegalInstruction(insn)` (rules R91, R122, R132). -/
def Hart.onlyPositions {x : XLen} (h : Hart x) (i : Instr) (k : Result (Hart x)) : Result (Hart x) :=
  if i.positions.all (fun p => decide (p.val < x.bits)) then k else h.raiseIllegal i

/-- `if XLEN == 32 and LWUGP_ON_RV32 == illegal then raise IllegalInstruction(insn)` (rule R148). -/
def Hart.onlyLwugp {x : XLen} (h : Hart x) (i : Instr) (k : Result (Hart x)) : Result (Hart x) :=
  if x = .rv32 ∧ h.launch.lwugpOnRv32 = .illegal then h.raiseIllegal i else k

/-! ## Registers and the program counter (rules R10, R20 to R28) -/

/-- `x[r]`: zero for `x0`, the stored value otherwise (rules R10, R21). -/
def Hart.readReg {x : XLen} (h : Hart x) (r : Reg) : Word x :=
  if r = 0 then 0 else h.regs[r]

/-- `x[r] <- v`: nothing for `x0` (rules R10, R21). -/
def Hart.writeReg {x : XLen} (h : Hart x) (r : Reg) (v : Word x) : Hart x :=
  if r = 0 then h else { h with regs := h.regs.set r v }

/-- `pc <- t`. -/
def Hart.setPc {x : XLen} (h : Hart x) (t : Word x) : Hart x :=
  { h with pc := t }

/-- `pc <- pc + 4`, modulo `2^XLEN` (rules R27, R28). -/
def Hart.advance {x : XLen} (h : Hart x) : Hart x :=
  h.setPc (h.pc + 4)

/-- A taken or not taken branch to `pc + off` (rules R76, R120, R121): the alignment of the target is checked only when
the branch is taken, and the fault is reported at the branch. -/
def Hart.branch {x : XLen} (h : Hart x) (taken : Bool) (off : Word x) : Result (Hart x) :=
  if taken then
    if (h.pc + off).toNat % h.launch.ialign.bytes = 0 then .next (h.setPc (h.pc + off))
    else h.raise .instructionAddressMisaligned (h.pc + off).toNat
  else .next h.advance

/-! ## Bytes of memory -/

/-- What a byte that is not listed reads as: no value (rules R34, R210 (e), log entry 4). -/
def Memory.unlisted : Option Byte := none

/-- The byte at an address, where it holds a value. -/
def Memory.read : Memory → Nat → Option Byte
  | [], _ => Memory.unlisted
  | (a, b) :: m, k => if a = k then some b else Memory.read m k

/-- Write one byte, keeping the addresses strictly rising. -/
def Memory.write : Memory → Nat → Byte → Memory
  | [], k, v => [(k, v)]
  | (a, b) :: m, k, v =>
    if k < a then (k, v) :: (a, b) :: m
    else if k = a then (k, v) :: m
    else (a, b) :: Memory.write m k v

/-- The `n` bytes from an address on, where all of them hold a value. -/
def Memory.readBytes (m : Memory) : Nat → Nat → Option (List Byte)
  | _, 0 => some []
  | a, n + 1 =>
    match m.read a, Memory.readBytes m (a + 1) n with
    | some b, some bs => some (b :: bs)
    | _, _ => none

/-- Write bytes from an address on. -/
def Memory.writeBytes : Memory → Nat → List Byte → Memory
  | m, _, [] => m
  | m, a, b :: bs => Memory.writeBytes (m.write a b) (a + 1) bs

/-- The canonical form: addresses strictly rising. No entry equals what an unlisted address reads as, since an entry holds
a value and an unlisted byte holds none. -/
abbrev Memory.wf (m : Memory) : Prop := m.Pairwise fun p q => p.1 < q.1

/-- Bytes in the order of `ENDIAN` (rule R45): little-endian as they are, big-endian reversed. -/
def inOrder (e : Endian) (bs : List Byte) : List Byte :=
  match e with
  | .little => bs
  | .big => bs.reverse

/-! ## The access primitives (rules R41 to R47) -/

/-- The access fault of each kind of access (rules R41, R42, R183). -/
def accessFault : AccessKind → Nat → Nat → Fault
  | .load => .loadAccessFault
  | .store => .storeAccessFault
  | .fetch => .instructionAccessFault

/-- The misalignment fault of each kind of access (rules R42, R47). A fetch is not checked for alignment (rule R183); its
row is there to be total and nothing calls it. -/
def misalignedFault : AccessKind → Nat → Nat → Fault
  | .load => .loadAddressMisaligned
  | .store => .storeAddressMisaligned
  | .fetch => .instructionAddressMisaligned

/-- Steps (1) to (3) of `MemRead` and `MemWrite` (rules R41, R42), in that order: the access must not wrap the address
space, must be aligned or split (rule R47), and must be admitted. `info` of every fault is `ea` (rule R185). -/
def Hart.checkAccess {x : XLen} (h : Hart x) (kind : AccessKind) (size : AccessSize) (ea : Word x) : Result Unit :=
  if 2 ^ x.bits < ea.toNat + size.bytes then .refused (.wrapsAddressSpace ea.toNat)
  else if ea.toNat % size.bytes = 0 then
    if h.launch.admits kind size ea.toNat then .next () else h.raise (accessFault kind) ea.toNat
  else
    match h.launch.misaligned with
    | .fault => h.raise (misalignedFault kind) ea.toNat
    | .split =>
      if h.launch.admitsBytes kind ea.toNat size.bytes then .next () else h.raise (accessFault kind) ea.toNat

/-- `MemRead(addr, n)` (rule R41): the checks, then the value of the bytes `addr .. addr+n-1` in the order of rule R45. A
byte without a value is refused (rule R201). A read changes nothing. -/
def Hart.memRead {x : XLen} (h : Hart x) (size : AccessSize) (ea : Word x) : Result (BitVec size.bits) :=
  andThen (h.checkAccess .load size ea) fun _ =>
    match h.mem.readBytes ea.toNat size.bytes with
    | some bs => .next (BitVec.ofNat size.bits (leValue (inOrder h.launch.endian bs)))
    | none => .refused (.noValueInMemory ea.toNat)

/-- `MemWrite(addr, n, v)` (rule R42): the checks, then the bytes of `v` in the order of rule R45; "No other byte
changes". A store that overlaps the program text is refused (rule R56; after the checks, log entry 16). -/
def Hart.memWrite {x : XLen} (h : Hart x) (size : AccessSize) (ea : Word x) (v : BitVec size.bits) : Result (Hart x) :=
  andThen (h.checkAccess .store size ea) fun _ =>
    if h.launch.overlapsText ea.toNat size.bytes then .refused (.storeOverlapsText ea.toNat)
    else
      .next { h with mem := h.mem.writeBytes ea.toNat (inOrder h.launch.endian (leBytes size.bytes v.toNat)) }

end Sys2Proof.Machine
end

