-- ==== Sys2Proof/Machine/Operands.lean ====
section
/-! DEFINITION. The operand forms: the extended immediates of rule R89, the effective address of rule R44, the scaled
index of the LEA group and the field selection of BFOS and BFOZ. -/

namespace Sys2Proof.Machine

/-- The number of GP, "the implied GP (x3) register" (rule R22). -/
def gp : Reg := 3

/-! ## Extensions (rule R9) -/

/-- `sext_N(v)`. -/
def sext (x : XLen) {n : Nat} (v : BitVec n) : Word x := v.signExtend x.bits

/-- `zext_N(v)`. -/
def zext (x : XLen) {n : Nat} (v : BitVec n) : Word x := v.setWidth x.bits

/-! ## Immediates as operands (rule R89) -/

/-- Half-word forms: `{imm[17:1], 0}`, 18 bits. -/
def immH (imm : BitVec 17) : BitVec 18 := imm ++ 0#1

/-- Word forms: `{imm[18:2], 00}`, 19 bits. -/
def immW (imm : BitVec 17) : BitVec 19 := imm ++ 0#2

/-- Double-word forms: `{imm[19:3], 000}`, 20 bits. -/
def immD (imm : BitVec 17) : BitVec 20 := imm ++ 0#3

/-- The branch offset `sext_11({imm[10:1], 0})` (rules R76, R120). -/
def branchOffset (x : XLen) (imm : BitVec 10) : Word x := sext x (imm ++ 0#1 : BitVec 11)

/-- The offset of an unsigned load, by `GP_ULOAD_OFFSET_EXT` (rule R141). -/
def unsignedOffset (x : XLen) (e : OffsetExt) {n : Nat} (imm : BitVec n) : Word x :=
  match e with
  | .ze => zext x imm
  | .se => sext x imm

/-- `ea = x[3] + off` modulo `2^XLEN` (rule R44). -/
def Hart.gpAddress {x : XLen} (h : Hart x) (off : Word x) : Word x := h.readReg gp + off

/-! ## The index of the LEA group (rules R160, R165) -/

/-- `index * size` for `size = 2^k`: a left shift, bits shifted out at the top are lost (rule R160). -/
def scaledIndex {x : XLen} (index : Word x) (k : Nat) : Word x := index <<< k

/-- `zext_32(v[31:0])` (rule R165). -/
def zeroExtendedIndex {x : XLen} (v : Word x) : Word x := zext x (v.setWidth 32)

/-! ## Bit fields (rules R130, R131) -/

/-- The result of BFOS and BFOZ as one value (rule R131): the `len`-bit field `src` of rule R130, extended and shifted to
its position. `extend` is `sext` for BFOS and `zext` for BFOZ. -/
def bitField {x : XLen} (extend : {n : Nat} → BitVec n → Word x) (s : Word x) (msb lsb : Nat) : Word x :=
  if msb = 0 then extend (s.extractLsb' 0 1) <<< lsb
  else if msb < lsb then extend (s.extractLsb' 0 (lsb - msb + 1)) <<< msb
  else extend (s.extractLsb' lsb (msb - lsb + 1))

end Sys2Proof.Machine
end

