-- ==== Sys2Proof/Machine/GpAdd.lean ====
section
/-! DEFINITION. The GP-relative add (`40_addigp.md`). -/

namespace Sys2Proof.Machine

/-- Write a result to `rd` and advance: the end of every register instruction (rules R12, R27). -/
def Hart.finish {x : XLen} (h : Hart x) (rd : Reg) (v : Word x) : Result (Hart x) :=
  .next (h.writeReg rd v).advance

/-- ADDIGP (rule R110): `x[rd] <- x[3] + sext_18(imm)`. -/
def execAddigp (rd : Reg) (imm : BitVec 18) (s : State) : Result State :=
  s.onHart fun h => h.finish rd (h.readReg gp + sext s.xlen imm)

end Sys2Proof.Machine
end

