-- ==== Sys2Proof/Machine/BitField.lean ====
section
/-! DEFINITION. The bit-field operations (`42_bitfield.md`). -/

namespace Sys2Proof.Machine

/-- BFOZ (rule R133): the zero-extended bit-field operation. -/
def execBfoz (rd rs1 : Reg) (msb lsb : Fin 64) (s : State) : Result State :=
  s.onHart fun h =>
    h.onlyPositions (.bfoz rd rs1 msb lsb) (h.finish rd (bitField (zext s.xlen) (h.readReg rs1) msb.val lsb.val))

/-- BFOS (rule R132): the sign-extended bit-field operation. -/
def execBfos (rd rs1 : Reg) (msb lsb : Fin 64) (s : State) : Result State :=
  s.onHart fun h =>
    h.onlyPositions (.bfos rd rs1 msb lsb) (h.finish rd (bitField (sext s.xlen) (h.readReg rs1) msb.val lsb.val))

end Sys2Proof.Machine
end

