-- ==== Sys2Proof/Machine/Flags.lean ====
section
/-! DEFINITION. There are no status flags, condition codes or predicate registers (rule R29): "the branch instructions
test a register directly". This file holds those tests. -/

namespace Sys2Proof.Machine

/-- The test of BBC (rule R122): bit `cimm` of the register is 0. -/
def bitIsClear {x : XLen} (v : Word x) (cimm : Fin 64) : Bool := v.getLsbD cimm.val == false

/-- The test of BBS (rule R123): bit `cimm` of the register is 1. -/
def bitIsSet {x : XLen} (v : Word x) (cimm : Fin 64) : Bool := v.getLsbD cimm.val == true

/-- The test of BEQC (rule R124): the whole register equals the zero-extended constant. -/
def equalsConstant {x : XLen} (v : Word x) (cimm : BitVec 7) : Bool := v == zext x cimm

/-- The test of BNEC (rule R125). -/
def differsFromConstant {x : XLen} (v : Word x) (cimm : BitVec 7) : Bool := v != zext x cimm

end Sys2Proof.Machine
end

