-- ==== Sys2Proof/Machine/Branch.lean ====
section
/-! DEFINITION. The compare-and-branch instructions (`41_branches.md`). -/

namespace Sys2Proof.Machine

/-- BBC (rule R122): branch if bit `cimm` of `x[rs1]` is 0. -/
def execBbc (rs1 : Reg) (cimm : Fin 64) (imm : BitVec 10) (s : State) : Result State :=
  s.onHart fun h =>
    h.onlyPositions (.bbc rs1 cimm imm) (h.branch (bitIsClear (h.readReg rs1) cimm) (branchOffset s.xlen imm))

/-- BBS (rule R123): branch if bit `cimm` of `x[rs1]` is 1. -/
def execBbs (rs1 : Reg) (cimm : Fin 64) (imm : BitVec 10) (s : State) : Result State :=
  s.onHart fun h =>
    h.onlyPositions (.bbs rs1 cimm imm) (h.branch (bitIsSet (h.readReg rs1) cimm) (branchOffset s.xlen imm))

/-- BEQC (rule R124): branch if `x[rs1] == zext_7(cimm)`. -/
def execBeqc (rs1 : Reg) (cimm : BitVec 7) (imm : BitVec 10) (s : State) : Result State :=
  s.onHart fun h => h.branch (equalsConstant (h.readReg rs1) cimm) (branchOffset s.xlen imm)

/-- BNEC (rule R125): branch if `x[rs1] != zext_7(cimm)`. -/
def execBnec (rs1 : Reg) (cimm : BitVec 7) (imm : BitVec 10) (s : State) : Result State :=
  s.onHart fun h => h.branch (differsFromConstant (h.readReg rs1) cimm) (branchOffset s.xlen imm)

end Sys2Proof.Machine
end

