-- ==== Sys2Proof/Machine/GpLoad.lean ====
section
/-! DEFINITION. The GP-relative loads (`43_gp_loads.md`). -/

namespace Sys2Proof.Machine

/-- The shared shape (rule R140): read `n` bytes at `x[3] + off`, extend the value, write it to `rd`. The access is made
and can fault although `rd = 0` (rule R21). -/
def Hart.gpLoad {x : XLen} (h : Hart x) (size : AccessSize) (extend : BitVec size.bits → Word x) (rd : Reg)
    (off : Word x) : Result (Hart x) :=
  andThen (h.memRead size (h.gpAddress off)) fun m => h.finish rd (extend m)

/-- LBGP (rule R142): a byte, sign-extended. -/
def execLbgp (rd : Reg) (imm : BitVec 18) (s : State) : Result State :=
  s.onHart fun h => h.gpLoad .byte (sext s.xlen) rd (sext s.xlen imm)

/-- LBUGP (rule R143): a byte, zero-extended; its offset by rule R141. -/
def execLbugp (rd : Reg) (imm : BitVec 18) (s : State) : Result State :=
  s.onHart fun h => h.gpLoad .byte (zext s.xlen) rd (unsignedOffset s.xlen h.launch.uloadOffsetExt imm)

/-- LHGP (rule R144): a half-word, sign-extended. -/
def execLhgp (rd : Reg) (imm : BitVec 17) (s : State) : Result State :=
  s.onHart fun h => h.gpLoad .half (sext s.xlen) rd (sext s.xlen (immH imm))

/-- LHUGP (rule R145): a half-word, zero-extended; its offset by rule R141. -/
def execLhugp (rd : Reg) (imm : BitVec 17) (s : State) : Result State :=
  s.onHart fun h => h.gpLoad .half (zext s.xlen) rd (unsignedOffset s.xlen h.launch.uloadOffsetExt (immH imm))

/-- LWGP (rule R147): a word, sign-extended (the identity on RV32). -/
def execLwgp (rd : Reg) (imm : BitVec 17) (s : State) : Result State :=
  s.onHart fun h => h.gpLoad .word (sext s.xlen) rd (sext s.xlen (immW imm))

/-- LWUGP (rule R148): a word, zero-extended (the identity on RV32); its offset by rule R141. -/
def execLwugp (rd : Reg) (imm : BitVec 17) (s : State) : Result State :=
  s.onHart fun h =>
    h.onlyLwugp (.lwugp rd imm)
      (h.gpLoad .word (zext s.xlen) rd (unsignedOffset s.xlen h.launch.uloadOffsetExt (immW imm)))

/-- LDGP (rule R146): a double-word, which fills the register; RV64 only. -/
def execLdgp (rd : Reg) (imm : BitVec 17) (s : State) : Result State :=
  s.onHart fun h => h.onlyRv64 (.ldgp rd imm) (h.gpLoad .double (zext s.xlen) rd (sext s.xlen (immD imm)))

end Sys2Proof.Machine
end

