-- ==== Sys2Proof/Machine/GpStore.lean ====
section
/-! DEFINITION. The GP-relative stores (`45_gp_stores.md`). -/

namespace Sys2Proof.Machine

/-- The shared shape (rule R170): write the low `8n` bits of `x[rs2]` to the `n` bytes at `x[3] + off` and advance. -/
def Hart.gpStore {x : XLen} (h : Hart x) (size : AccessSize) (rs2 : Reg) (off : Word x) : Result (Hart x) :=
  andThen (h.memWrite size (h.gpAddress off) ((h.readReg rs2).setWidth size.bits)) fun h' => .next h'.advance

/-- SBGP (rule R171). -/
def execSbgp (rs2 : Reg) (imm : BitVec 18) (s : State) : Result State :=
  s.onHart fun h => h.gpStore .byte rs2 (sext s.xlen imm)

/-- SHGP (rule R173). -/
def execShgp (rs2 : Reg) (imm : BitVec 17) (s : State) : Result State :=
  s.onHart fun h => h.gpStore .half rs2 (sext s.xlen (immH imm))

/-- SWGP (rule R174). -/
def execSwgp (rs2 : Reg) (imm : BitVec 17) (s : State) : Result State :=
  s.onHart fun h => h.gpStore .word rs2 (sext s.xlen (immW imm))

/-- SDGP (rule R172): RV64 only. -/
def execSdgp (rs2 : Reg) (imm : BitVec 17) (s : State) : Result State :=
  s.onHart fun h => h.onlyRv64 (.sdgp rs2 imm) (h.gpStore .double rs2 (sext s.xlen (immD imm)))

end Sys2Proof.Machine
end

