-- ==== Sys2Proof/Machine/Lea.lean ====
section
/-! DEFINITION. The load-effective-address instructions (`44_lea.md`). They access no memory (rule R160). -/

namespace Sys2Proof.Machine

/-- The shared shape (rule R160): `x[rd] <- x[rs1] + (index << k)`. -/
def Hart.lea {x : XLen} (h : Hart x) (rd rs1 : Reg) (index : Word x) (k : Nat) : Result (Hart x) :=
  h.finish rd (h.readReg rs1 + scaledIndex index k)

/-- LEA.h (rule R161). -/
def execLeaH (rd rs1 rs2 : Reg) (s : State) : Result State :=
  s.onHart fun h => h.lea rd rs1 (h.readReg rs2) 1

/-- LEA.w (rule R162). -/
def execLeaW (rd rs1 rs2 : Reg) (s : State) : Result State :=
  s.onHart fun h => h.lea rd rs1 (h.readReg rs2) 2

/-- LEA.d (rule R163). -/
def execLeaD (rd rs1 rs2 : Reg) (s : State) : Result State :=
  s.onHart fun h => h.lea rd rs1 (h.readReg rs2) 3

/-- LEA.b.ze (rules R164, R165). -/
def execLeaBZe (rd rs1 rs2 : Reg) (s : State) : Result State :=
  s.onHart fun h => h.onlyRv64 (.leaBZe rd rs1 rs2) (h.lea rd rs1 (zeroExtendedIndex (h.readReg rs2)) 0)

/-- LEA.h.ze (rules R165, R166). -/
def execLeaHZe (rd rs1 rs2 : Reg) (s : State) : Result State :=
  s.onHart fun h => h.onlyRv64 (.leaHZe rd rs1 rs2) (h.lea rd rs1 (zeroExtendedIndex (h.readReg rs2)) 1)

/-- LEA.w.ze (rules R165, R167). -/
def execLeaWZe (rd rs1 rs2 : Reg) (s : State) : Result State :=
  s.onHart fun h => h.onlyRv64 (.leaWZe rd rs1 rs2) (h.lea rd rs1 (zeroExtendedIndex (h.readReg rs2)) 2)

/-- LEA.d.ze (rules R165, R168). -/
def execLeaDZe (rd rs1 rs2 : Reg) (s : State) : Result State :=
  s.onHart fun h => h.onlyRv64 (.leaDZe rd rs1 rs2) (h.lea rd rs1 (zeroExtendedIndex (h.readReg rs2)) 3)

end Sys2Proof.Machine
end

