-- ==== Sys2Proof/Machine/Dispatch.lean ====
section
/-! DEFINITION. One arm per instruction: each calls the meaning of its own rule. -/

namespace Sys2Proof.Machine

def exec (i : Instr) (s : State) : Host.Outcome State Fault Refusal :=
  match i with
  -- Custom-0 (rule R85)
  | .lbgp rd imm => Sys2Proof.Machine.execLbgp rd imm s
  | .addigp rd imm => Sys2Proof.Machine.execAddigp rd imm s
  | .lbugp rd imm => Sys2Proof.Machine.execLbugp rd imm s
  | .sbgp rs2 imm => Sys2Proof.Machine.execSbgp rs2 imm s
  -- Custom-1 (rule R86)
  | .shgp rs2 imm => Sys2Proof.Machine.execShgp rs2 imm s
  | .lhgp rd imm => Sys2Proof.Machine.execLhgp rd imm s
  | .lwgp rd imm => Sys2Proof.Machine.execLwgp rd imm s
  | .ldgp rd imm => Sys2Proof.Machine.execLdgp rd imm s
  | .swgp rs2 imm => Sys2Proof.Machine.execSwgp rs2 imm s
  | .lhugp rd imm => Sys2Proof.Machine.execLhugp rd imm s
  | .lwugp rd imm => Sys2Proof.Machine.execLwugp rd imm s
  | .sdgp rs2 imm => Sys2Proof.Machine.execSdgp rs2 imm s
  -- Custom-2 (rule R87)
  | .bbc rs1 cimm imm => Sys2Proof.Machine.execBbc rs1 cimm imm s
  | .bbs rs1 cimm imm => Sys2Proof.Machine.execBbs rs1 cimm imm s
  | .beqc rs1 cimm imm => Sys2Proof.Machine.execBeqc rs1 cimm imm s
  | .bnec rs1 cimm imm => Sys2Proof.Machine.execBnec rs1 cimm imm s
  | .bfoz rd rs1 msb lsb => Sys2Proof.Machine.execBfoz rd rs1 msb lsb s
  | .bfos rd rs1 msb lsb => Sys2Proof.Machine.execBfos rd rs1 msb lsb s
  | .leaH rd rs1 rs2 => Sys2Proof.Machine.execLeaH rd rs1 rs2 s
  | .leaW rd rs1 rs2 => Sys2Proof.Machine.execLeaW rd rs1 rs2 s
  | .leaD rd rs1 rs2 => Sys2Proof.Machine.execLeaD rd rs1 rs2 s
  | .leaBZe rd rs1 rs2 => Sys2Proof.Machine.execLeaBZe rd rs1 rs2 s
  | .leaHZe rd rs1 rs2 => Sys2Proof.Machine.execLeaHZe rd rs1 rs2 s
  | .leaWZe rd rs1 rs2 => Sys2Proof.Machine.execLeaWZe rd rs1 rs2 s
  | .leaDZe rd rs1 rs2 => Sys2Proof.Machine.execLeaDZe rd rs1 rs2 s

end Sys2Proof.Machine
end

