-- ==== Sys2Proof/Machine/Fetch.lean ====
section
/-! DEFINITION. Fetch and decode, "the part of every step before the instruction's own rule" (rule R183). -/

namespace Sys2Proof

/-! ## What the launch parameters say of a fetch -/

/-- Whether an instruction may be fetched at an address: `Admit(pc, 4, fetch)` (rule R183), and the address is one of the
program text, the map from addresses to words of rule R210 (c) (rule R216: a run that reaches an address outside it "ends
in `InstructionAccessFault`"). DESIGN CHOICE (log entry 27): an address inside a word of the program text but not at its
start is outside it, as in a map by word address; rule R48 would let a model read the four bytes there. -/
def Launch.fetchable (l : Launch) (pc : Nat) : Bool :=
  l.admits .fetch .word pc && l.text.contains pc

/-- `ADMIT_TIER` raised as far as a tier needs it, and no further (rule R3). -/
def AdmitTier.including (a : AdmitTier) (t : Tier) : AdmitTier :=
  if a.admits t then a
  else
    match t with
    | .s => .s
    | .p => .sp
    | .g => .spg

/-- The launch parameters under which the instruction a word decodes to may run (rules R3, R210 (a)); a word that decodes
to none asks for nothing. -/
def Launch.admitting (l : Launch) : Decoded → Launch
  | .instr i => { l with admitTier := l.admitTier.including i.tier }
  | .illegal _ => l
  | .unknown _ => l

/-- Put an address into a strictly rising list of addresses. -/
def insertAddress (a : Nat) : List Nat → List Nat
  | [] => [a]
  | b :: l => if a < b then a :: b :: l else if a = b then b :: l else b :: insertAddress a l

/-- The launch parameters that let a word at `pc` be fetched: `pc` is an address of the program text, `Admit` lets it be
fetched, and `END_PC` is not there. -/
def Launch.makeFetchable (l : Launch) (pc : Nat) : Launch :=
  { l with
    text := insertAddress pc l.text
    admitRanges :=
      if l.admits .fetch .word pc then l.admitRanges
      else { first := pc, last := pc, size := .word, kind := .fetch } :: l.admitRanges
    endPc := if l.endPc = some pc then none else l.endPc }

end Sys2Proof

namespace Sys2Proof.Machine

/-- Item (1) of rule R183: whether the run has ended, `pc = END_PC` (rule R216). -/
def Hart.atEnd {x : XLen} (h : Hart x) : Bool := decide (h.launch.endPc = some h.pc.toNat)

/-- Items (2) and (3) of rule R183: the word at the pc, assembled little-endian whatever `ENDIAN` is (rule R48). A fetch
past the top of the address space and a fetch of bytes without a value are refused (rule R201, log entry 17). -/
def Hart.fetch {x : XLen} (h : Hart x) : Result (BitVec 32) :=
  if h.launch.fetchable h.pc.toNat then
    if 2 ^ x.bits < h.pc.toNat + 4 then .refused (.wrapsAddressSpace h.pc.toNat)
    else
      match h.mem.readBytes h.pc.toNat 4 with
      | some bs => .next (BitVec.ofNat 32 (leValue bs))
      | none => .refused (.noValueInMemory h.pc.toNat)
  else h.raise .instructionAccessFault h.pc.toNat

/-- Item (4) of rule R183: an `Illegal` word raises `IllegalInstruction(insn)`; an `Unknown` word, or an instruction
whose tier is not admitted, is refused. -/
def Hart.decodeAdmitted {x : XLen} (h : Hart x) (insn : BitVec 32) : Result Instr :=
  match decode x h.launch.lwugpOnRv32 h.launch.codes insn with
  | .illegal _ => h.raise .illegalInstruction insn.toNat
  | .unknown why => .refused (.unknownEncoding insn why)
  | .instr i => if h.launch.admitTier.admits i.tier then .next i else .refused (.tierNotAdmitted i.mnemonic)

/-- A hart with an instruction word placed where the next fetch reads it (rules R48, R210 (c)), launched with parameters
that let it be fetched and its tier run (log entries 5, 13). -/
def Hart.placeWord {x : XLen} (h : Hart x) (insn : BitVec 32) : Hart x :=
  { h with
    mem := h.mem.writeBytes h.pc.toNat (leBytes 4 insn.toNat)
    launch :=
      (h.launch.makeFetchable h.pc.toNat).admitting
        (decode x h.launch.lwugpOnRv32 h.launch.codes insn) }

end Sys2Proof.Machine
end

