-- ==== Sys2Proof/Machine/Step.lean ====
section
/-! DEFINITION. One step of the machine (rules R183, R201), and a word placed where the next step fetches. -/

namespace Sys2Proof.Machine

/-- One step. At `END_PC` nothing is fetched and the state stays the end state (rule R216, log entry 14); otherwise fetch,
decode, and the instruction's own rule (rule R183). -/
def step (s : State) : Host.Outcome State Fault Refusal :=
  if s.hart.atEnd then .next s
  else
    andThen s.hart.fetch fun insn =>
      andThen (s.hart.decodeAdmitted insn) fun i =>
        exec i s

/-- The state with an instruction placed where `step` fetches next: the bits `w` of the row (those above `nbits` zero) as
one word at the pc, as a word of the program text. Stands for the load of a program by whoever launches a run (rule R210,
log entry 13). -/
def State.withFetchWord (s : State) (nbits w : Nat) : State :=
  { s with hart := s.hart.placeWord (BitVec.ofNat 32 (w % 2 ^ nbits)) }

end Sys2Proof.Machine
end

