-- ==== Sys2Proof/Safety.lean ====
section
/-! DEFINITION. The terms that claims are stated in: the tables of rules R23, R40 and R184, what an instruction leaves
behind (its result and its frame), the machine's invariant, and what counts as a safe run. -/

namespace Sys2Proof

/-! ## The table of rule R23: what each instruction reads and writes -/

/-- The destination register of an instruction, for the instructions that have one (rule R23, column "writes"). -/
def Instr.dest : Instr → Option Reg
  | .lbgp rd _ => some rd
  | .addigp rd _ => some rd
  | .lbugp rd _ => some rd
  | .sbgp _ _ => none
  | .shgp _ _ => none
  | .lhgp rd _ => some rd
  | .lwgp rd _ => some rd
  | .ldgp rd _ => some rd
  | .swgp _ _ => none
  | .lhugp rd _ => some rd
  | .lwugp rd _ => some rd
  | .sdgp _ _ => none
  | .bbc _ _ _ => none
  | .bbs _ _ _ => none
  | .beqc _ _ _ => none
  | .bnec _ _ _ => none
  | .bfoz rd _ _ _ => some rd
  | .bfos rd _ _ _ => some rd
  | .leaH rd _ _ => some rd
  | .leaW rd _ _ => some rd
  | .leaD rd _ _ => some rd
  | .leaBZe rd _ _ => some rd
  | .leaHZe rd _ _ => some rd
  | .leaWZe rd _ _ => some rd
  | .leaDZe rd _ _ => some rd

/-- The registers an instruction reads, the implied `x3` among them (rule R23, column "reads"). -/
def Instr.sources : Instr → List Reg
  | .lbgp _ _ => [3]
  | .addigp _ _ => [3]
  | .lbugp _ _ => [3]
  | .sbgp rs2 _ => [3, rs2]
  | .shgp rs2 _ => [3, rs2]
  | .lhgp _ _ => [3]
  | .lwgp _ _ => [3]
  | .ldgp _ _ => [3]
  | .swgp rs2 _ => [3, rs2]
  | .lhugp _ _ => [3]
  | .lwugp _ _ => [3]
  | .sdgp rs2 _ => [3, rs2]
  | .bbc rs1 _ _ => [rs1]
  | .bbs rs1 _ _ => [rs1]
  | .beqc rs1 _ _ => [rs1]
  | .bnec rs1 _ _ => [rs1]
  | .bfoz _ rs1 _ _ => [rs1]
  | .bfos _ rs1 _ _ => [rs1]
  | .leaH _ rs1 rs2 => [rs1, rs2]
  | .leaW _ rs1 rs2 => [rs1, rs2]
  | .leaD _ rs1 rs2 => [rs1, rs2]
  | .leaBZe _ rs1 rs2 => [rs1, rs2]
  | .leaHZe _ rs1 rs2 => [rs1, rs2]
  | .leaWZe _ rs1 rs2 => [rs1, rs2]
  | .leaDZe _ rs1 rs2 => [rs1, rs2]

/-- The one data access of an instruction (rules R40, R219): its kind, its size, and the offset from GP as the integer
that rule R89 gives, a signed one everywhere but in the unsigned loads under `GP_ULOAD_OFFSET_EXT = ZE` (rule R141). -/
def Instr.access (e : OffsetExt) : Instr → Option (AccessKind × AccessSize × Int)
  | .lbgp _ imm => some (.load, .byte, imm.toInt)
  | .addigp _ _ => none
  | .lbugp _ imm => some (.load, .byte, match e with | .ze => imm.toNat | .se => imm.toInt)
  | .sbgp _ imm => some (.store, .byte, imm.toInt)
  | .shgp _ imm => some (.store, .half, 2 * imm.toInt)
  | .lhgp _ imm => some (.load, .half, 2 * imm.toInt)
  | .lwgp _ imm => some (.load, .word, 4 * imm.toInt)
  | .ldgp _ imm => some (.load, .double, 8 * imm.toInt)
  | .swgp _ imm => some (.store, .word, 4 * imm.toInt)
  | .lhugp _ imm => some (.load, .half, match e with | .ze => 2 * imm.toNat | .se => 2 * imm.toInt)
  | .lwugp _ imm => some (.load, .word, match e with | .ze => 4 * imm.toNat | .se => 4 * imm.toInt)
  | .sdgp _ imm => some (.store, .double, 8 * imm.toInt)
  | .bbc _ _ _ => none
  | .bbs _ _ _ => none
  | .beqc _ _ _ => none
  | .bnec _ _ _ => none
  | .bfoz _ _ _ _ => none
  | .bfos _ _ _ _ => none
  | .leaH _ _ _ => none
  | .leaW _ _ _ => none
  | .leaD _ _ _ => none
  | .leaBZe _ _ _ => none
  | .leaHZe _ _ _ => none
  | .leaWZe _ _ _ => none
  | .leaDZe _ _ _ => none

/-- The kinds of data access (rule R40); `none` for an instruction that does not touch memory. -/
def Instr.accessKind (i : Instr) : Option AccessKind := (i.access .ze).map (·.1)

/-- The branch offset field `imm[10:1]` of the four branches (rule R120). -/
def Instr.branchField : Instr → Option (BitVec 10)
  | .lbgp _ _ => none
  | .addigp _ _ => none
  | .lbugp _ _ => none
  | .sbgp _ _ => none
  | .shgp _ _ => none
  | .lhgp _ _ => none
  | .lwgp _ _ => none
  | .ldgp _ _ => none
  | .swgp _ _ => none
  | .lhugp _ _ => none
  | .lwugp _ _ => none
  | .sdgp _ _ => none
  | .bbc _ _ imm => some imm
  | .bbs _ _ imm => some imm
  | .beqc _ _ imm => some imm
  | .bnec _ _ imm => some imm
  | .bfoz _ _ _ _ => none
  | .bfos _ _ _ _ => none
  | .leaH _ _ _ => none
  | .leaW _ _ _ => none
  | .leaD _ _ _ => none
  | .leaBZe _ _ _ => none
  | .leaHZe _ _ _ => none
  | .leaWZe _ _ _ => none
  | .leaDZe _ _ _ => none

end Sys2Proof

namespace Sys2Proof.Machine

/-! ## Faults (rules R182, R184, R185) -/

/-- The `mcause` code of each fault (rule R182). -/
def Fault.code : Fault → Nat
  | .instructionAddressMisaligned _ _ => 0
  | .instructionAccessFault _ _ => 1
  | .illegalInstruction _ _ => 2
  | .loadAddressMisaligned _ _ => 4
  | .loadAccessFault _ _ => 5
  | .storeAddressMisaligned _ _ => 6
  | .storeAccessFault _ _ => 7

/-- The `pc` of the outcome `Fault(F, pc, info)` (rule R181). -/
def Fault.pc : Fault → Nat
  | .instructionAddressMisaligned pc _ => pc
  | .instructionAccessFault pc _ => pc
  | .illegalInstruction pc _ => pc
  | .loadAddressMisaligned pc _ => pc
  | .loadAccessFault pc _ => pc
  | .storeAddressMisaligned pc _ => pc
  | .storeAccessFault pc _ => pc

/-- The codes of the faults an instruction's own rule can raise (rule R184). -/
def faultCodes (x : XLen) (lw : LwugpOnRv32) (i : Instr) : List Nat :=
  (if i.WellFormed x lw then [] else [2]) ++
  (match i.branchField with
   | some _ => [0]
   | none => []) ++
  (match i.access .ze with
   | some (.load, .byte, _) => [5]
   | some (.load, _, _) => [4, 5]
   | some (.store, .byte, _) => [7]
   | some (.store, _, _) => [6, 7]
   | some (.fetch, _, _) => []
   | none => [])

/-! ## What an instruction leaves behind: results and frames -/

/-- `h'` is `h` after an instruction that wrote `v` to `rd` and nothing else: every other register and every byte of
memory is as before, the launch parameters too, and the pc is past the instruction (rules R10, R12, R27). `x0` reads as
zero whatever was written (rule R21). -/
def Hart.RegisterResult {x : XLen} (h h' : Hart x) (rd : Reg) (v : Word x) : Prop :=
  (∀ r : Reg, h'.readReg r = if r = 0 then 0 else if r = rd then v else h.readReg r) ∧
  h'.pc = h.pc + 4 ∧
  (∀ a : Nat, h'.mem.read a = h.mem.read a) ∧
  h'.launch = h.launch

/-- `h'` is `h` with the pc at `t` and nothing else changed: no register and no byte of memory (rule R120). -/
def Hart.JumpResult {x : XLen} (h h' : Hart x) (t : Word x) : Prop :=
  (∀ r : Reg, h'.readReg r = h.readReg r) ∧
  h'.pc = t ∧
  (∀ a : Nat, h'.mem.read a = h.mem.read a) ∧
  h'.launch = h.launch

/-- The address of the byte that holds bits `8k+7 : 8k` of an `n`-byte value at `ea` (rule R45). -/
def byteAddress (e : Endian) (ea n k : Nat) : Nat :=
  match e with
  | .little => ea + k
  | .big => ea + (n - 1 - k)

/-- The memory holds the value `v` at `ea`: each of its bytes is there, in the order of `ENDIAN` (rule R45). -/
abbrev Hart.Holds {x : XLen} (h : Hart x) (size : AccessSize) (ea : Nat) (v : BitVec size.bits) : Prop :=
  ∀ k : Nat, k < size.bytes →
    h.mem.read (byteAddress h.launch.endian ea size.bytes k) = some (v.extractLsb' (8 * k) 8)

/-- `h'` is `h` after a store of `v` at `ea`: the bytes of `v` are there, every byte outside them, every register and the
launch parameters are as before, and the pc is past the instruction (rules R42, R170). -/
def Hart.StoreResult {x : XLen} (h h' : Hart x) (size : AccessSize) (ea : Nat) (v : BitVec size.bits) : Prop :=
  h'.Holds size ea v ∧
  (∀ a : Nat, a < ea ∨ ea + size.bytes ≤ a → h'.mem.read a = h.mem.read a) ∧
  (∀ r : Reg, h'.readReg r = h.readReg r) ∧
  h'.pc = h.pc + 4 ∧
  h'.launch = h.launch

/-- The conditions under which an access passes the checks of rules R41 (1) to (3) and R47: it does not wrap, and it is
aligned and admitted, or misaligned, split and admitted byte by byte. -/
abbrev Hart.Accessible {x : XLen} (h : Hart x) (kind : AccessKind) (size : AccessSize) (ea : Nat) : Prop :=
  ea + size.bytes ≤ 2 ^ x.bits ∧
  ((ea % size.bytes = 0 ∧ h.launch.admits kind size ea = true) ∨
   (ea % size.bytes ≠ 0 ∧ h.launch.misaligned = .split ∧
     ∀ k : Nat, k < size.bytes → h.launch.admits kind .byte (ea + k) = true))

/-- No byte of an access belongs to the program text (rule R56). -/
abbrev Hart.OutsideText {x : XLen} (h : Hart x) (ea n : Nat) : Prop :=
  ∀ t ∈ h.launch.text, ea + n ≤ t ∨ t + 4 ≤ ea

/-- The address of an instruction's data access: `x[3] + off` modulo `2^XLEN` (rule R44). -/
def Hart.dataAddress {x : XLen} (h : Hart x) (off : Int) : Word x :=
  h.readReg 3 + BitVec.ofInt x.bits off

/-- The next instruction can be fetched and is `insn` (rules R183, R48): the run has not ended, the pc is an admitted
address of the program text whose word does not wrap, and its four bytes hold `insn`, little-endian. -/
abbrev Hart.Fetches {x : XLen} (h : Hart x) (insn : BitVec 32) : Prop :=
  h.launch.endPc ≠ some h.pc.toNat ∧
  h.launch.admits .fetch .word h.pc.toNat = true ∧
  h.pc.toNat ∈ h.launch.text ∧
  h.pc.toNat + 4 ≤ 2 ^ x.bits ∧
  ∀ k : Nat, k < 4 → h.mem.read (h.pc.toNat + k) = some (insn.extractLsb' (8 * k) 8)

/-! ## The invariant -/

/-- The program text is as rule R210 (c) has it: addresses strictly rising, "multiples of 4 apart, starting at any
aligned address". -/
abbrev TextOk (l : Launch) : Prop :=
  (l.text.Pairwise fun a b => a < b ∧ (b - a) % 4 = 0) ∧ ∀ a ∈ l.text, a % l.ialign.bytes = 0

/-- What every state of a run satisfies: the unused slot of `x0` holds zero (rule R21), the memory is in canonical form
and lies within the address space (rule R32), the pc is a multiple of `IALIGN/8` (rules R183, R210 (b)) and the program
text is well-formed (rule R210 (c)). -/
abbrev Hart.Inv {x : XLen} (h : Hart x) : Prop :=
  h.regs[0] = 0 ∧
  h.mem.wf ∧
  (∀ c ∈ h.mem, c.1 < 2 ^ x.bits) ∧
  h.pc.toNat % h.launch.ialign.bytes = 0 ∧
  TextOk h.launch

/-- The invariant of a state. -/
abbrev State.Inv (s : State) : Prop := s.hart.Inv

/-! ## Runs (rules R201, R216, R217) -/

/-- Whether the run has ended: the pc is `END_PC` (rule R216). The step of such a state answers that state again. -/
abbrev State.Ended (s : State) : Prop := s.hart.atEnd = true

/-- `t` follows from `s` by some number of steps. -/
inductive Reaches (s : State) : State → Prop where
  | refl : Reaches s s
  | tail {t u : State} : Reaches s t → step t = .next u → Reaches s u

/-- A safe run: from `s` no step ends in a fault or in a refusal (rule R201). -/
def SafeFrom (s : State) : Prop := ∀ t : State, Reaches s t → ∃ u : State, step t = .next u

/-- A run that ends normally (rule R216): it reaches a state whose pc is `END_PC`. -/
def EndsFrom (s : State) : Prop := ∃ t : State, Reaches s t ∧ t.Ended

end Sys2Proof.Machine
end

