-- ==== Sys2Proof/Certificates/Slice0/Obligations.lean ====
section
/-! DEFINITION. The statements for the provers. Each docstring names the rule of the spec it formalises; a rule the spec
marks as a decision or as general knowledge is named as such. -/

open Sys2Proof Sys2Proof.Machine

/-! ## The machine as a whole -/

/-- The reset state satisfies the invariant. The reset values of registers, pc, memory, program text and `IALIGN` are this
model's choice (log entries 2, 3, 4, 8, 13): the spec gives none (rules R34, R211). -/
def Obligations.ResetStateMeetsInvariant : Prop := State.reset.Inv

/-- Every step keeps the invariant: the slot of `x0` stays zero, the memory stays canonical and inside the address space,
the pc stays a multiple of `IALIGN/8` and the program text stays well-formed (rules R21, R32, R183, R210; decisions D3,
D9, D30). No reachability is assumed. -/
def Obligations.EveryStepKeepsInvariant : Prop :=
  ∀ s s' : State, s.Inv → step s = .next s' → s'.Inv

/-- No step changes the register width, the launch parameters or a byte of the program text (rules R5, R6, R56, R210;
decisions D2, D23). -/
def Obligations.StepKeepsLaunchAndProgramText : Prop :=
  ∀ s s' : State, step s = .next s' →
    s'.xlen = s.xlen ∧ s'.hart.launch = s.hart.launch ∧
    ∀ t ∈ s.hart.launch.text, ∀ k : Nat, k < 4 → s'.hart.mem.read (t + k) = s.hart.mem.read (t + k)

/-- Where the run has not ended, the word at the pc decodes to `i` and `i`'s tier is admitted, the step is `exec i` of the
same state: nothing is added around it (rule R183, decision D19). -/
def Obligations.StepRunsTheDecodedInstruction : Prop :=
  ∀ (x : XLen) (h : Hart x) (insn : BitVec 32) (i : Instr), h.Fetches insn →
    decode x h.launch.lwugpOnRv32 h.launch.codes insn = .instr i →
    h.launch.admitTier.admits i.tier = true →
    step ⟨x, h⟩ = exec i ⟨x, h⟩

/-- The outcomes of a step before the instruction's own rule (rule R183, decision D19): a pc that is not an admitted
address of the program text faults (that an address inside a word of the text but not at its start is none of its
addresses is this model's choice, log entry 27); an `Illegal` word faults; an `Unknown` word and an instruction of a tier
that is not admitted are refused. The model's choice (log entry 17): a fetch whose word passes the top of the address space
is refused, and so is a fetch of bytes of which one holds no value. -/
def Obligations.StepStopsBeforeTheInstruction : Prop :=
  ∀ (x : XLen) (h : Hart x),
    (h.launch.endPc ≠ some h.pc.toNat →
      ¬ (h.launch.admits .fetch .word h.pc.toNat = true ∧ h.pc.toNat ∈ h.launch.text) →
      step ⟨x, h⟩ = .fault (.instructionAccessFault h.pc.toNat h.pc.toNat)) ∧
    (h.launch.endPc ≠ some h.pc.toNat → h.launch.admits .fetch .word h.pc.toNat = true → h.pc.toNat ∈ h.launch.text →
      (2 ^ x.bits < h.pc.toNat + 4 → step ⟨x, h⟩ = .refused (.wrapsAddressSpace h.pc.toNat)) ∧
      (h.pc.toNat + 4 ≤ 2 ^ x.bits → (∃ k : Nat, k < 4 ∧ h.mem.read (h.pc.toNat + k) = none) →
        step ⟨x, h⟩ = .refused (.noValueInMemory h.pc.toNat))) ∧
    (∀ (insn : BitVec 32) (why : IllegalReason), h.Fetches insn →
      decode x h.launch.lwugpOnRv32 h.launch.codes insn = .illegal why →
      step ⟨x, h⟩ = .fault (.illegalInstruction h.pc.toNat insn.toNat)) ∧
    (∀ (insn : BitVec 32) (why : UnknownReason), h.Fetches insn →
      decode x h.launch.lwugpOnRv32 h.launch.codes insn = .unknown why →
      step ⟨x, h⟩ = .refused (.unknownEncoding insn why)) ∧
    (∀ (insn : BitVec 32) (i : Instr), h.Fetches insn →
      decode x h.launch.lwugpOnRv32 h.launch.codes insn = .instr i →
      h.launch.admitTier.admits i.tier = false →
      step ⟨x, h⟩ = .refused (.tierNotAdmitted i.mnemonic))

/-- At `END_PC` nothing is fetched and the state is the end state (rule R216, decision D25). That the step answers this
state again is this model's form of the outcome End (log entry 14). -/
def Obligations.StepAtEndPcKeepsTheEndState : Prop :=
  ∀ s : State, s.hart.launch.endPc = some s.hart.pc.toNat → step s = .next s

/-- A fault reports the pc of the instruction that raised it, the pc of the state before the step (rule R181, decision
D19). -/
def Obligations.FaultsReportThePcOfTheStep : Prop :=
  ∀ (s : State) (f : Fault), step s = .fault f → f.pc = s.hart.pc.toNat

/-- An instruction's own rule raises only the faults the table of rule R184 lists for it, and `IllegalInstruction` (code
2) only on RV32 (rules R182, R184; decision D19). -/
def Obligations.EachInstructionRaisesOnlyItsFaults : Prop :=
  ∀ (x : XLen) (h : Hart x) (i : Instr) (f : Fault), exec i ⟨x, h⟩ = .fault f →
    f.code ∈ faultCodes x h.launch.lwugpOnRv32 i ∧ (f.code = 2 → x = .rv32)

/-- `exec` of an instruction that does not exist at this `XLEN` raises `IllegalInstruction`: an RV64-only instruction on
RV32, a bit position of 32 or more on RV32, LWUGP on RV32 where it is illegal. The rules R91, R93 and R148 (decisions D16,
D17, D31) say it of the word decoded. That `exec` itself raises the fault, and that the word it records is the encoding of
the instruction, is this model's choice (log entry 20). -/
def Obligations.IllFormedInstructionsRaiseIllegal : Prop :=
  ∀ (x : XLen) (h : Hart x) (i : Instr), ¬ i.WellFormed x h.launch.lwugpOnRv32 →
    exec i ⟨x, h⟩ = .fault (.illegalInstruction h.pc.toNat (encode h.launch.codes i).toNat)

/-- The values of the state after reset for which the spec gives none (rules R34, R210, R211), all of them this model's
choice (log entries 1, 2, 3, 4, 8, 13, 14): `IALIGN` is 16, `XLEN` is 64, every register reads zero, the pc is zero, no byte of memory holds a value, there is no
program text and no `END_PC`. -/
def Obligations.ResetStateValues : Prop :=
  State.reset.xlen = .rv64 ∧ (∀ r : Reg, State.reset.hart.readReg r = 0) ∧ State.reset.hart.pc = 0 ∧
  (∀ a : Nat, State.reset.hart.mem.read a = none) ∧ State.reset.hart.launch.text = [] ∧
  State.reset.hart.launch.endPc = none ∧ State.reset.hart.launch.ialign = .bits16

/-- The parameters for which the table of rule R5 gives a default have it after reset (decisions D7, D8, D12, D13, D15, D31;
log entries 5, 6, 7, 10, 11, 12): `ADMIT_TIER` SP, `ENDIAN` little, `MISALIGNED_DATA` fault, `GP_ULOAD_OFFSET_EXT` ZE,
`LWUGP_ON_RV32` legal, and the function codes of the table. -/
def Obligations.ResetParametersAreTheDefaults : Prop :=
  let l : Launch := State.reset.hart.launch
  l.admitTier = .sp ∧ l.endian = .little ∧ l.misaligned = .fault ∧ l.uloadOffsetExt = .ze ∧ l.lwugpOnRv32 = .legal ∧
  (l.codes.f2Lbgp = 0b00#2 ∧ l.codes.f2Lbugp = 0b10#2 ∧ l.codes.f2Sbgp = 0b11#2) ∧
  (l.codes.f3Shgp = 0b000#3 ∧ l.codes.f3Lhgp = 0b001#3 ∧ l.codes.f3Ldgp = 0b011#3 ∧ l.codes.f3Swgp = 0b100#3 ∧
    l.codes.f3Lhugp = 0b101#3 ∧ l.codes.f3Lwugp = 0b110#3) ∧
  (l.codes.f7LeaD = 0b0000111#7 ∧ l.codes.f7LeaBZe = 0b0001000#7 ∧ l.codes.f7LeaHZe = 0b0001001#7 ∧
    l.codes.f7LeaWZe = 0b0001010#7 ∧ l.codes.f7LeaDZe = 0b0001011#7)

/-! ## Whole-machine frames (the table of rule R23) -/

/-- The only register an instruction can change is its `rd`; a branch and a store change none (rule R23). -/
def Obligations.OnlyTheDestinationRegisterChanges : Prop :=
  ∀ (x : XLen) (h h' : Hart x) (i : Instr), exec i ⟨x, h⟩ = .next ⟨x, h'⟩ →
    ∀ r : Reg, i.dest ≠ some r → h'.readReg r = h.readReg r

/-- Only the four stores change memory, and a store changes at most the bytes of its one access at `x[3] + off` (rules
R23, R40, R42, R219). -/
def Obligations.OnlyStoresChangeMemory : Prop :=
  ∀ (x : XLen) (h h' : Hart x) (i : Instr), exec i ⟨x, h⟩ = .next ⟨x, h'⟩ →
    (i.accessKind ≠ some .store → ∀ a : Nat, h'.mem.read a = h.mem.read a) ∧
    (∀ (size : AccessSize) (off : Int), i.access h.launch.uloadOffsetExt = some (.store, size, off) →
      ∀ a : Nat, a < (h.dataAddress off).toNat ∨ (h.dataAddress off).toNat + size.bytes ≤ a →
        h'.mem.read a = h.mem.read a)

/-- Every instruction but a branch is followed by `pc + 4`; a branch by `pc + 4` or its target (rules R23, R27, R28,
R76, R120). -/
def Obligations.OnlyBranchesAssignThePc : Prop :=
  ∀ (x : XLen) (h h' : Hart x) (i : Instr), exec i ⟨x, h⟩ = .next ⟨x, h'⟩ →
    (i.branchField = none → h'.pc = h.pc + 4) ∧
    (∀ imm : BitVec 10, i.branchField = some imm →
      h'.pc = h.pc + 4 ∨ h'.pc = h.pc + (imm ++ 0#1 : BitVec 11).signExtend x.bits)

/-- An instruction depends on no register but those rule R23 lists for it: two harts that agree on the pc, the memory, the
launch parameters and those registers stop with the same fault, or both go on, with the same pc, the same memory and the
same value in the destination register (rule R23). -/
def Obligations.InstructionsReadOnlyTheirSources : Prop :=
  ∀ (x : XLen) (h g : Hart x) (i : Instr),
    h.pc = g.pc → h.mem = g.mem → h.launch = g.launch → (∀ r ∈ i.sources, h.readReg r = g.readReg r) →
    (∀ f : Fault, exec i ⟨x, h⟩ = .fault f ↔ exec i ⟨x, g⟩ = .fault f) ∧
    (∀ h' : Hart x, exec i ⟨x, h⟩ = .next ⟨x, h'⟩ →
      ∃ g' : Hart x, exec i ⟨x, g⟩ = .next ⟨x, g'⟩ ∧ h'.pc = g'.pc ∧ h'.mem = g'.mem ∧ h'.launch = g'.launch ∧
        ∀ r : Reg, i.dest = some r → h'.readReg r = g'.readReg r)

/-- An instruction that makes no data access does not depend on memory: with any other memory it answers the same outcome
but for that memory (rules R23, R40). -/
def Obligations.RegisterInstructionsIgnoreMemory : Prop :=
  ∀ (x : XLen) (h : Hart x) (m : Memory) (i : Instr), i.accessKind = none →
    (∀ f : Fault, exec i ⟨x, h⟩ = .fault f → exec i ⟨x, { h with mem := m }⟩ = .fault f) ∧
    (∀ h' : Hart x, exec i ⟨x, h⟩ = .next ⟨x, h'⟩ →
      exec i ⟨x, { h with mem := m }⟩ = .next ⟨x, { h' with mem := m }⟩)

/-! ## Registers -/

/-- Register reads and writes (rule R10; decisions D1, D3): `x0` reads as zero, a write of `x0` does nothing, and a write
of another register is read back there and nowhere else. -/
def Obligations.RegisterReadAfterWrite : Prop :=
  ∀ (x : XLen) (h : Hart x) (r r' : Reg) (v : Word x),
    h.readReg 0 = 0 ∧ h.writeReg 0 v = h ∧
    (h.writeReg r v).readReg r' = if r' = 0 then 0 else if r' = r then v else h.readReg r'

/-- A load to `x0` still makes its access: it faults exactly where the same load to another register does, and where that
one completes it completes too and changes no register (rules R21, R94; decision D3). -/
def Obligations.LoadsToX0StillAccessMemory : Prop :=
  ∀ (x : XLen) (h : Hart x) (rd : Reg) (i j : Instr),
    (∃ imm : BitVec 18,
      (i = .lbgp 0 imm ∧ j = .lbgp rd imm) ∨ (i = .lbugp 0 imm ∧ j = .lbugp rd imm)) ∨
    (∃ imm : BitVec 17,
      (i = .lhgp 0 imm ∧ j = .lhgp rd imm) ∨ (i = .lhugp 0 imm ∧ j = .lhugp rd imm) ∨
      (i = .lwgp 0 imm ∧ j = .lwgp rd imm) ∨
      (i = .lwugp 0 imm ∧ j = .lwugp rd imm ∧ (x = .rv64 ∨ h.launch.lwugpOnRv32 = .legal)) ∨
      (i = .ldgp 0 imm ∧ j = .ldgp rd imm ∧ x = .rv64)) →
    (∀ f : Fault, exec i ⟨x, h⟩ = .fault f ↔ exec j ⟨x, h⟩ = .fault f) ∧
    (∀ h' : Hart x, exec j ⟨x, h⟩ = .next ⟨x, h'⟩ →
      ∃ h₀ : Hart x, exec i ⟨x, h⟩ = .next ⟨x, h₀⟩ ∧ h₀.pc = h'.pc ∧ ∀ r : Reg, h₀.readReg r = h.readReg r)

/-! ## ADDIGP and the LEA group -/

/-- ADDIGP (rule R110). Every Custom-0 word with `insn[13:12] = 01` is an ADDIGP, at both widths, with `rd = insn[11:7]` and
the 18-bit immediate of the rule; and it completes in every state: `rd` gets `x[3] + sext_18(imm)` modulo `2^XLEN`,
whatever `rd` is, and nothing else changes but the pc. -/
def Obligations.AddigpAddsToGp : Prop :=
  (∀ (x : XLen) (lw : LwugpOnRv32) (c : Codes) (w : BitVec 32),
    w.extractLsb' 0 7 = 0b0001011#7 → w.extractLsb' 12 2 = 0b01#2 →
    decode x lw c w = .instr (.addigp (w.extractLsb' 7 5).toFin
      (w.extractLsb' 31 1 ++ w.extractLsb' 15 2 ++ w.extractLsb' 17 3 ++ w.extractLsb' 20 1 ++ w.extractLsb' 21 10 ++
        w.extractLsb' 14 1))) ∧
  (∀ (x : XLen) (h : Hart x) (rd : Reg) (imm : BitVec 18),
    ∃ h' : Hart x, exec (.addigp rd imm) ⟨x, h⟩ = .next ⟨x, h'⟩ ∧
      h.RegisterResult h' rd (h.readReg 3 + imm.signExtend x.bits))

/-- LEA.h and LEA.w (rules R161, R162). Every Custom-2 word with `insn[14:12] = 000` and `insn[31:25]` 0000101 or 0000110 is
one of them, at both widths, with the register fields of the format; and they complete in every state: `x[rd]` gets
`x[rs1] + x[rs2] * 2` or `x[rs1] + x[rs2] * 4` modulo `2^XLEN`, from the old values whatever `rd` is, and nothing else
changes but the pc. -/
def Obligations.LeaHalfAndWordAddTheScaledIndex : Prop :=
  (∀ (x : XLen) (lw : LwugpOnRv32) (c : Codes) (w : BitVec 32),
    let rd : Reg := (w.extractLsb' 7 5).toFin
    let rs1 : Reg := (w.extractLsb' 15 5).toFin
    let rs2 : Reg := (w.extractLsb' 20 5).toFin
    w.extractLsb' 0 7 = 0b1011011#7 → w.extractLsb' 12 3 = 0b000#3 →
    (w.extractLsb' 25 7 = 0b0000101#7 → decode x lw c w = .instr (.leaH rd rs1 rs2)) ∧
    (w.extractLsb' 25 7 = 0b0000110#7 → decode x lw c w = .instr (.leaW rd rs1 rs2))) ∧
  (∀ (x : XLen) (h : Hart x) (rd rs1 rs2 : Reg),
    (∃ h' : Hart x, exec (.leaH rd rs1 rs2) ⟨x, h⟩ = .next ⟨x, h'⟩ ∧
      h.RegisterResult h' rd (h.readReg rs1 + h.readReg rs2 * 2)) ∧
    (∃ h' : Hart x, exec (.leaW rd rs1 rs2) ⟨x, h⟩ = .next ⟨x, h'⟩ ∧
      h.RegisterResult h' rd (h.readReg rs1 + h.readReg rs2 * 4)))

/-- LEA.d completes in every state: `x[rd] = x[rs1] + x[rs2] * 8` modulo `2^XLEN`, and nothing else changes but the pc (rule
R163, which is general knowledge; decision D15). -/
def Obligations.LeaDoubleAddsTheScaledIndex : Prop :=
  ∀ (x : XLen) (h : Hart x) (rd rs1 rs2 : Reg),
    ∃ h' : Hart x, exec (.leaD rd rs1 rs2) ⟨x, h⟩ = .next ⟨x, h'⟩ ∧
      h.RegisterResult h' rd (h.readReg rs1 + h.readReg rs2 * 8)

/-- The four `.ze` forms complete on RV64: the low 32 bits of `x[rs2]` as a number, times 1, 2, 4, 8, added to `x[rs1]`,
and nothing else changes but the pc (rules R164 to R168, all general knowledge; decisions D13, D15). -/
def Obligations.LeaZeAddsZeroExtendedIndex : Prop :=
  ∀ (h : Hart .rv64) (rd rs1 rs2 : Reg),
    (∃ h' : Hart .rv64, exec (.leaBZe rd rs1 rs2) ⟨.rv64, h⟩ = .next ⟨.rv64, h'⟩ ∧
      h.RegisterResult h' rd (h.readReg rs1 + BitVec.ofNat 64 ((h.readReg rs2).toNat % 2 ^ 32))) ∧
    (∃ h' : Hart .rv64, exec (.leaHZe rd rs1 rs2) ⟨.rv64, h⟩ = .next ⟨.rv64, h'⟩ ∧
      h.RegisterResult h' rd (h.readReg rs1 + BitVec.ofNat 64 ((h.readReg rs2).toNat % 2 ^ 32 * 2))) ∧
    (∃ h' : Hart .rv64, exec (.leaWZe rd rs1 rs2) ⟨.rv64, h⟩ = .next ⟨.rv64, h'⟩ ∧
      h.RegisterResult h' rd (h.readReg rs1 + BitVec.ofNat 64 ((h.readReg rs2).toNat % 2 ^ 32 * 4))) ∧
    (∃ h' : Hart .rv64, exec (.leaDZe rd rs1 rs2) ⟨.rv64, h⟩ = .next ⟨.rv64, h'⟩ ∧
      h.RegisterResult h' rd (h.readReg rs1 + BitVec.ofNat 64 ((h.readReg rs2).toNat % 2 ^ 32 * 8)))

/-! ## BFOS and BFOZ -/

/-- Bit `i` of the result of BFOS (`fill = true`) and BFOZ (`fill = false`) by the table of rule R130, in its order: a field
of `s = x[rs1]` placed in the result, zeros below it, and above it copies of the field's top bit (BFOS) or zeros (BFOZ). -/
def pcodeBit {x : XLen} (fill : Bool) (s : Word x) (msb lsb i : Nat) : Bool :=
  if msb = 0 then
    if i = lsb then s.getLsbD 0
    else if lsb < i then fill && s.getLsbD 0
    else false
  else if msb < lsb then
    if msb ≤ i ∧ i ≤ lsb then s.getLsbD (i - msb)
    else if lsb < i then fill && s.getLsbD (lsb - msb)
    else false
  else
    if i ≤ msb - lsb then s.getLsbD (lsb + i)
    else fill && s.getLsbD msb

/-- BFOS and BFOZ complete for all positions 0 to `XLEN-1`, and every bit of `rd` is the one the table of rule R130 gives: the
three operations, tested in its order, with the sign-extended or zero-extended fill. Nothing else changes but the pc. -/
def Obligations.BitFieldOperationsWriteTheFieldAndTheFill : Prop :=
  ∀ (x : XLen) (h : Hart x) (rd rs1 : Reg) (msb lsb : Fin 64), msb.val < x.bits → lsb.val < x.bits →
    (∃ (h' : Hart x) (v : Word x), exec (.bfos rd rs1 msb lsb) ⟨x, h⟩ = .next ⟨x, h'⟩ ∧ h.RegisterResult h' rd v ∧
      ∀ i : Nat, i < x.bits → v.getLsbD i = pcodeBit true (h.readReg rs1) msb.val lsb.val i) ∧
    (∃ (h' : Hart x) (v : Word x), exec (.bfoz rd rs1 msb lsb) ⟨x, h⟩ = .next ⟨x, h'⟩ ∧ h.RegisterResult h' rd v ∧
      ∀ i : Nat, i < x.bits → v.getLsbD i = pcodeBit false (h.readReg rs1) msb.val lsb.val i)

/-- The corner cases of rules R132 and R133: `msb = XLEN-1, lsb = 0` copies; `msb = XLEN-1, lsb = k` is a logical right
shift by `k` under BFOZ and an arithmetic one under BFOS; `msb = k, lsb = XLEN-1` with `0 < k < XLEN-1` is a left shift by
`k` under both (the rules say it of `0 < k`; at `k = XLEN-1` their own case 3 applies, log entry 21); `msb = lsb = k > 0`
replicates bit `k` under BFOS. -/
def Obligations.BitFieldCornerCases : Prop :=
  ∀ (x : XLen) (s : Word x) (k : Nat), k < x.bits →
    bitField (zext x) s (x.bits - 1) k = s >>> k ∧
    bitField (sext x) s (x.bits - 1) k = s.sshiftRight k ∧
    (0 < k → k < x.bits - 1 → bitField (zext x) s k (x.bits - 1) = s <<< k) ∧
    (0 < k → k < x.bits - 1 → bitField (sext x) s k (x.bits - 1) = s <<< k) ∧
    (0 < k → bitField (sext x) s k k = if s.getLsbD k then BitVec.allOnes x.bits else 0)

/-- The field selection is the same on RV32 and RV64 (rule R134): for positions below 32 the RV32 result is the low 32
bits of the RV64 result of the same instruction. -/
def Obligations.BitFieldWidthsAgree : Prop :=
  ∀ (s : BitVec 64) (msb lsb : Nat), msb < 32 → lsb < 32 →
    bitField (zext .rv32) (s.setWidth 32) msb lsb = (bitField (zext .rv64) s msb lsb).setWidth 32 ∧
    bitField (sext .rv32) (s.setWidth 32) msb lsb = (bitField (sext .rv64) s msb lsb).setWidth 32

/-! ## Branches -/

/-- The four branches test a condition on `x[rs1]` and an immediate; if it holds `pc <- pc + off`, else `pc <- pc + 4`,
with `off = sext_11({imm[10:1], 0})`, an even number -1024 .. +1022. They write no register and touch no memory, and
nothing else changes (rule R120, with the conditions of rules R122 to R125). The target must be aligned where the branch
is taken (rule R121). -/
def Obligations.BranchesJumpWhenTheirConditionHolds : Prop :=
  ∀ (x : XLen) (h : Hart x) (rs1 : Reg) (imm : BitVec 10),
    let off : Word x := (imm ++ 0#1 : BitVec 11).signExtend x.bits
    let aligned : Prop := (h.pc + off).toNat % h.launch.ialign.bytes = 0
    (off.toInt % 2 = 0 ∧ -1024 ≤ off.toInt ∧ off.toInt ≤ 1022) ∧
    (∀ cimm : Fin 64, cimm.val < x.bits → ((h.readReg rs1).getLsbD cimm.val = false → aligned) →
      ∃ h' : Hart x, exec (.bbc rs1 cimm imm) ⟨x, h⟩ = .next ⟨x, h'⟩ ∧
        h.JumpResult h' (if (h.readReg rs1).getLsbD cimm.val = false then h.pc + off else h.pc + 4)) ∧
    (∀ cimm : Fin 64, cimm.val < x.bits → ((h.readReg rs1).getLsbD cimm.val = true → aligned) →
      ∃ h' : Hart x, exec (.bbs rs1 cimm imm) ⟨x, h⟩ = .next ⟨x, h'⟩ ∧
        h.JumpResult h' (if (h.readReg rs1).getLsbD cimm.val = true then h.pc + off else h.pc + 4)) ∧
    (∀ cimm : BitVec 7, ((h.readReg rs1).toNat = cimm.toNat → aligned) →
      ∃ h' : Hart x, exec (.beqc rs1 cimm imm) ⟨x, h⟩ = .next ⟨x, h'⟩ ∧
        h.JumpResult h' (if (h.readReg rs1).toNat = cimm.toNat then h.pc + off else h.pc + 4)) ∧
    (∀ cimm : BitVec 7, ((h.readReg rs1).toNat ≠ cimm.toNat → aligned) →
      ∃ h' : Hart x, exec (.bnec rs1 cimm imm) ⟨x, h⟩ = .next ⟨x, h'⟩ ∧
        h.JumpResult h' (if (h.readReg rs1).toNat ≠ cimm.toNat then h.pc + off else h.pc + 4))

/-- A taken branch to a target that is no multiple of `IALIGN/8` raises `InstructionAddressMisaligned` with the target,
at the branch (rule R121, decision D9). -/
def Obligations.TakenBranchToMisalignedTargetFaults : Prop :=
  ∀ (x : XLen) (h : Hart x) (rs1 : Reg) (imm : BitVec 10),
    let t : Word x := h.pc + (imm ++ 0#1 : BitVec 11).signExtend x.bits
    t.toNat % h.launch.ialign.bytes ≠ 0 →
    (∀ cimm : Fin 64, cimm.val < x.bits → (h.readReg rs1).getLsbD cimm.val = false →
      exec (.bbc rs1 cimm imm) ⟨x, h⟩ = .fault (.instructionAddressMisaligned h.pc.toNat t.toNat)) ∧
    (∀ cimm : Fin 64, cimm.val < x.bits → (h.readReg rs1).getLsbD cimm.val = true →
      exec (.bbs rs1 cimm imm) ⟨x, h⟩ = .fault (.instructionAddressMisaligned h.pc.toNat t.toNat)) ∧
    (∀ cimm : BitVec 7, (h.readReg rs1).toNat = cimm.toNat →
      exec (.beqc rs1 cimm imm) ⟨x, h⟩ = .fault (.instructionAddressMisaligned h.pc.toNat t.toNat)) ∧
    (∀ cimm : BitVec 7, (h.readReg rs1).toNat ≠ cimm.toNat →
      exec (.bnec rs1 cimm imm) ⟨x, h⟩ = .fault (.instructionAddressMisaligned h.pc.toNat t.toNat))

/-- With `IALIGN = 16` no branch faults at an even pc (rules R49, R121; decision D9). -/
def Obligations.NoMisalignedTargetUnderIalign16 : Prop :=
  ∀ (x : XLen) (h : Hart x) (i : Instr), h.launch.ialign = .bits16 → h.pc.toNat % 2 = 0 → i.branchField ≠ none →
    i.WellFormed x h.launch.lwugpOnRv32 → ∃ h' : Hart x, exec i ⟨x, h⟩ = .next ⟨x, h'⟩

/-- BBC and BBS with the same operands are exact complements, and so are BEQC and BNEC: exactly one of the two goes to the
target and the other goes to `pc + 4` (rule R123 corner case (c), rule R125 corner case (c)). -/
def Obligations.ComplementaryBranches : Prop :=
  ∀ (x : XLen) (h : Hart x) (rs1 : Reg) (imm : BitVec 10),
    let t : Word x := h.pc + (imm ++ 0#1 : BitVec 11).signExtend x.bits
    let goes (i : Instr) (a : Word x) : Prop := exec i ⟨x, h⟩ = .next ⟨x, { h with pc := a }⟩
    t.toNat % h.launch.ialign.bytes = 0 →
    (∀ cimm : Fin 64, cimm.val < x.bits →
      (goes (.bbc rs1 cimm imm) t ∧ goes (.bbs rs1 cimm imm) (h.pc + 4)) ∨
      (goes (.bbc rs1 cimm imm) (h.pc + 4) ∧ goes (.bbs rs1 cimm imm) t)) ∧
    (∀ cimm : BitVec 7,
      (goes (.beqc rs1 cimm imm) t ∧ goes (.bnec rs1 cimm imm) (h.pc + 4)) ∨
      (goes (.beqc rs1 cimm imm) (h.pc + 4) ∧ goes (.bnec rs1 cimm imm) t))

/-- The branches on `x0` (rule R21, decision D3): `BBC x0` and `BEQC x0, 0` always branch, `BBS x0` never does. -/
def Obligations.BranchesOnX0 : Prop :=
  ∀ (x : XLen) (h : Hart x) (imm : BitVec 10),
    let t : Word x := h.pc + (imm ++ 0#1 : BitVec 11).signExtend x.bits
    t.toNat % h.launch.ialign.bytes = 0 →
    (∀ cimm : Fin 64, cimm.val < x.bits → exec (.bbc 0 cimm imm) ⟨x, h⟩ = .next ⟨x, { h with pc := t }⟩) ∧
    (∀ cimm : Fin 64, cimm.val < x.bits → exec (.bbs 0 cimm imm) ⟨x, h⟩ = .next ⟨x, { h with pc := h.pc + 4 }⟩) ∧
    exec (.beqc 0 0 imm) ⟨x, h⟩ = .next ⟨x, { h with pc := t }⟩

/-- A taken branch with `off = 0` changes no state at all: the step answers the state it began in, so the run repeats for
ever (rules R94, R217). It holds for every word that decodes to one of the four branches with offset 0, whatever its
register and constant, where the branch's condition holds (rules R122 to R125) and the pc, which is the target, is
aligned (rule R121). -/
def Obligations.TakenSelfBranchRepeats : Prop :=
  ∀ (x : XLen) (h : Hart x) (insn : BitVec 32) (i : Instr), h.Fetches insn → h.pc.toNat % h.launch.ialign.bytes = 0 →
    decode x h.launch.lwugpOnRv32 h.launch.codes insn = .instr i →
    (∃ rs1 : Reg,
      (∃ cimm : Fin 64,
        (i = .bbc rs1 cimm 0 ∧ (h.readReg rs1).getLsbD cimm.val = false) ∨
        (i = .bbs rs1 cimm 0 ∧ (h.readReg rs1).getLsbD cimm.val = true)) ∨
      (∃ cimm : BitVec 7,
        (i = .beqc rs1 cimm 0 ∧ (h.readReg rs1).toNat = cimm.toNat) ∨
        (i = .bnec rs1 cimm 0 ∧ (h.readReg rs1).toNat ≠ cimm.toNat))) →
    step ⟨x, h⟩ = .next ⟨x, h⟩

/-- The target a branch word encodes is `pc + off`, `off = sext_11({insn[31], insn[29:25], insn[11:8], 0})`, at an even
distance from the branch (rule R76): for every word that decodes to a branch, the pc of its next state is that target or
`pc + 4`. -/
def Obligations.BranchWordsEncodeTheirTarget : Prop :=
  ∀ (x : XLen) (h h' : Hart x) (insn : BitVec 32) (i : Instr),
    decode x h.launch.lwugpOnRv32 h.launch.codes insn = .instr i → i.branchField ≠ none →
    let off : Word x :=
      (insn.extractLsb' 31 1 ++ insn.extractLsb' 25 5 ++ insn.extractLsb' 8 4 ++ 0#1 : BitVec 11).signExtend x.bits
    off.toNat % 2 = 0 ∧
    (exec i ⟨x, h⟩ = .next ⟨x, h'⟩ → h'.pc = h.pc + off ∨ h'.pc = h.pc + 4)

/-! ## GP-relative addresses, loads and stores -/

/-- The one access of every GP load and store is at `x[3] + off` modulo `2^XLEN`, `off` the extension of the assembled
immediate (the table `Instr.access`), and there is no base-register update (rule R44). Where the instruction goes on, a
load's destination holds the bytes at that address, extended one way or the other; a store's bytes at that address are the
low bits of `x[rs2]`; every byte outside them, and every byte under a load, is as before; and `x3` is as before, unless a load names it as
its destination. -/
def Obligations.EveryAccessIsAtGpPlusOffset : Prop :=
  ∀ (x : XLen) (h h' : Hart x) (i : Instr) (kind : AccessKind) (size : AccessSize) (off : Int),
    i.access h.launch.uloadOffsetExt = some (kind, size, off) → exec i ⟨x, h⟩ = .next ⟨x, h'⟩ →
    let ea : Nat := (h.readReg 3 + BitVec.ofInt x.bits off).toNat
    h.Accessible kind size ea ∧
    (kind = .load → ∃ v : BitVec size.bits, h.Holds size ea v ∧
      ∀ rd : Reg, i.dest = some rd → rd ≠ 0 →
        h'.readReg rd = v.signExtend x.bits ∨ h'.readReg rd = v.setWidth x.bits) ∧
    (kind = .store → ∀ rs2 : Reg, i.sources = [3, rs2] → h'.Holds size ea ((h.readReg rs2).setWidth size.bits)) ∧
    (∀ a : Nat, kind = .load ∨ a < ea ∨ ea + size.bytes ≤ a → h'.mem.read a = h.mem.read a) ∧
    (i.dest ≠ some 3 → h'.readReg 3 = h.readReg 3)

/-- The offset operands of the eleven loads and stores, as their meanings form them, are the integers of the table
`Instr.access`, and those lie in the ranges of rule R89 (of which the row of SWGP is general knowledge). -/
def Obligations.OffsetOperandsLieInTheirRanges : Prop :=
  ∀ (x : XLen) (h : Hart x) (b : BitVec 18) (f : BitVec 17),
    h.gpAddress (sext x b) = h.dataAddress b.toInt ∧ -131072 ≤ b.toInt ∧ b.toInt ≤ 131071 ∧
    h.gpAddress (zext x b) = h.dataAddress b.toNat ∧ b.toNat ≤ 262143 ∧
    h.gpAddress (sext x (immH f)) = h.dataAddress (2 * f.toInt) ∧ -131072 ≤ 2 * f.toInt ∧ 2 * f.toInt ≤ 131070 ∧
    h.gpAddress (zext x (immH f)) = h.dataAddress (2 * f.toNat) ∧ 2 * f.toNat ≤ 262142 ∧
    h.gpAddress (sext x (immW f)) = h.dataAddress (4 * f.toInt) ∧ -262144 ≤ 4 * f.toInt ∧ 4 * f.toInt ≤ 262140 ∧
    h.gpAddress (zext x (immW f)) = h.dataAddress (4 * f.toNat) ∧ 4 * f.toNat ≤ 524284 ∧
    h.gpAddress (sext x (immD f)) = h.dataAddress (8 * f.toInt) ∧ -524288 ≤ 8 * f.toInt ∧ 8 * f.toInt ≤ 524280

/-- The signed loads LBGP, LHGP, LWGP complete where the access passes the checks and the bytes hold a value: `rd` gets
that value sign-extended, and nothing else changes but the pc (rules R140, R142, R144, R147, R46; the sign extension of
LBGP and LHGP is decision D10). -/
def Obligations.SignedLoadsWriteTheExtendedValue : Prop :=
  ∀ (x : XLen) (h : Hart x) (rd : Reg),
    (∀ (imm : BitVec 18) (v : BitVec 8), h.Accessible .load .byte (h.gpAddress (sext x imm)).toNat →
      h.Holds .byte (h.gpAddress (sext x imm)).toNat v →
      ∃ h' : Hart x, exec (.lbgp rd imm) ⟨x, h⟩ = .next ⟨x, h'⟩ ∧ h.RegisterResult h' rd (v.signExtend x.bits)) ∧
    (∀ (imm : BitVec 17) (v : BitVec 16), h.Accessible .load .half (h.gpAddress (sext x (immH imm))).toNat →
      h.Holds .half (h.gpAddress (sext x (immH imm))).toNat v →
      ∃ h' : Hart x, exec (.lhgp rd imm) ⟨x, h⟩ = .next ⟨x, h'⟩ ∧ h.RegisterResult h' rd (v.signExtend x.bits)) ∧
    (∀ (imm : BitVec 17) (v : BitVec 32), h.Accessible .load .word (h.gpAddress (sext x (immW imm))).toNat →
      h.Holds .word (h.gpAddress (sext x (immW imm))).toNat v →
      ∃ h' : Hart x, exec (.lwgp rd imm) ⟨x, h⟩ = .next ⟨x, h'⟩ ∧ h.RegisterResult h' rd (v.signExtend x.bits))

/-- The unsigned loads LBUGP, LHUGP, LWUGP complete where the access passes the checks, the bytes hold a value and the
instruction exists: `rd` gets that value zero-extended, and nothing else changes but the pc. Their offset is extended by
`GP_ULOAD_OFFSET_EXT` (rules R140, R141, R143, R145, R148, R46; decisions D10, D12, D31). -/
def Obligations.UnsignedLoadsWriteTheExtendedValue : Prop :=
  ∀ (x : XLen) (h : Hart x) (rd : Reg),
    let off {n : Nat} (imm : BitVec n) : Word x := unsignedOffset x h.launch.uloadOffsetExt imm
    (∀ (imm : BitVec 18) (v : BitVec 8), h.Accessible .load .byte (h.gpAddress (off imm)).toNat →
      h.Holds .byte (h.gpAddress (off imm)).toNat v →
      ∃ h' : Hart x, exec (.lbugp rd imm) ⟨x, h⟩ = .next ⟨x, h'⟩ ∧ h.RegisterResult h' rd (v.setWidth x.bits)) ∧
    (∀ (imm : BitVec 17) (v : BitVec 16), h.Accessible .load .half (h.gpAddress (off (immH imm))).toNat →
      h.Holds .half (h.gpAddress (off (immH imm))).toNat v →
      ∃ h' : Hart x, exec (.lhugp rd imm) ⟨x, h⟩ = .next ⟨x, h'⟩ ∧ h.RegisterResult h' rd (v.setWidth x.bits)) ∧
    (∀ (imm : BitVec 17) (v : BitVec 32), (x = .rv64 ∨ h.launch.lwugpOnRv32 = .legal) →
      h.Accessible .load .word (h.gpAddress (off (immW imm))).toNat →
      h.Holds .word (h.gpAddress (off (immW imm))).toNat v →
      ∃ h' : Hart x, exec (.lwugp rd imm) ⟨x, h⟩ = .next ⟨x, h'⟩ ∧ h.RegisterResult h' rd (v.setWidth x.bits))

/-- LDGP completes on RV64 where the access passes the checks and the bytes hold a value: the value fills `rd`, and nothing
else changes but the pc (rules R140, R146). -/
def Obligations.LdgpLoadsADoubleWord : Prop :=
  ∀ (h : Hart .rv64) (rd : Reg) (imm : BitVec 17) (v : BitVec 64),
    h.Accessible .load .double (h.gpAddress (sext .rv64 (immD imm))).toNat →
    h.Holds .double (h.gpAddress (sext .rv64 (immD imm))).toNat v →
    ∃ h' : Hart .rv64, exec (.ldgp rd imm) ⟨.rv64, h⟩ = .next ⟨.rv64, h'⟩ ∧ h.RegisterResult h' rd v

/-- The four stores complete where the access passes the checks and lies outside the program text (SDGP on RV64): the low
`8n` bits of `x[rs2]` are at `x[3] + off`, in the byte order of `ENDIAN`, every byte outside them and every register is
as before, and the pc is past the instruction (rules R42, R45, R56, R170 to R174; SWGP is general knowledge). -/
def Obligations.StoresWriteTheLowBits : Prop :=
  ∀ (x : XLen) (h : Hart x) (rs2 : Reg),
    (∀ imm : BitVec 18,
      let ea := (h.gpAddress (sext x imm)).toNat
      h.Accessible .store .byte ea → h.OutsideText ea 1 →
      ∃ h' : Hart x, exec (.sbgp rs2 imm) ⟨x, h⟩ = .next ⟨x, h'⟩ ∧
        h.StoreResult h' .byte ea ((h.readReg rs2).setWidth 8)) ∧
    (∀ imm : BitVec 17,
      let ea := (h.gpAddress (sext x (immH imm))).toNat
      h.Accessible .store .half ea → h.OutsideText ea 2 →
      ∃ h' : Hart x, exec (.shgp rs2 imm) ⟨x, h⟩ = .next ⟨x, h'⟩ ∧
        h.StoreResult h' .half ea ((h.readReg rs2).setWidth 16)) ∧
    (∀ imm : BitVec 17,
      let ea := (h.gpAddress (sext x (immW imm))).toNat
      h.Accessible .store .word ea → h.OutsideText ea 4 →
      ∃ h' : Hart x, exec (.swgp rs2 imm) ⟨x, h⟩ = .next ⟨x, h'⟩ ∧
        h.StoreResult h' .word ea ((h.readReg rs2).setWidth 32)) ∧
    (∀ imm : BitVec 17,
      let ea := (h.gpAddress (sext x (immD imm))).toNat
      x = .rv64 → h.Accessible .store .double ea → h.OutsideText ea 8 →
      ∃ h' : Hart x, exec (.sdgp rs2 imm) ⟨x, h⟩ = .next ⟨x, h'⟩ ∧
        h.StoreResult h' .double ea ((h.readReg rs2).setWidth 64))

/-- A store frame that needs no premise about the access: wherever a store answers a next state, every byte outside the
bytes at its own address is as before, every register too, and the pc is past it (rules R42, R170). -/
def Obligations.StoresLeaveOtherBytesAlone : Prop :=
  ∀ (x : XLen) (h h' : Hart x) (rs2 : Reg) (i : Instr) (size : AccessSize) (off : Word x),
    ((∃ imm : BitVec 18, i = .sbgp rs2 imm ∧ size = .byte ∧ off = sext x imm) ∨
     (∃ imm : BitVec 17, (i = .shgp rs2 imm ∧ size = .half ∧ off = sext x (immH imm)) ∨
       (i = .swgp rs2 imm ∧ size = .word ∧ off = sext x (immW imm)) ∨
       (i = .sdgp rs2 imm ∧ size = .double ∧ off = sext x (immD imm)))) →
    exec i ⟨x, h⟩ = .next ⟨x, h'⟩ →
    (∀ a : Nat, a < (h.gpAddress off).toNat ∨ (h.gpAddress off).toNat + size.bytes ≤ a →
      h'.mem.read a = h.mem.read a) ∧
    (∀ r : Reg, h'.readReg r = h.readReg r) ∧ h'.pc = h.pc + 4 ∧ h'.launch = h.launch

/-- A load of the bytes the preceding store wrote gives the value stored, whatever the byte order (rules R45, R53, R214;
decisions D7, D22): for each width, after the store completes, the load of the same width and offset completes where it
is admitted, and `rd` gets the low bits of the stored register, extended. -/
def Obligations.LoadAfterStoreGivesTheStoredValue : Prop :=
  ∀ (x : XLen) (h g : Hart x) (rs2 rd : Reg),
    (∀ imm : BitVec 18, exec (.sbgp rs2 imm) ⟨x, h⟩ = .next ⟨x, g⟩ →
      g.Accessible .load .byte (g.gpAddress (sext x imm)).toNat →
      ∃ g' : Hart x, exec (.lbgp rd imm) ⟨x, g⟩ = .next ⟨x, g'⟩ ∧
        g.RegisterResult g' rd (((h.readReg rs2).setWidth 8).signExtend x.bits)) ∧
    (∀ imm : BitVec 17, exec (.shgp rs2 imm) ⟨x, h⟩ = .next ⟨x, g⟩ →
      g.Accessible .load .half (g.gpAddress (sext x (immH imm))).toNat →
      ∃ g' : Hart x, exec (.lhgp rd imm) ⟨x, g⟩ = .next ⟨x, g'⟩ ∧
        g.RegisterResult g' rd (((h.readReg rs2).setWidth 16).signExtend x.bits)) ∧
    (∀ imm : BitVec 17, exec (.swgp rs2 imm) ⟨x, h⟩ = .next ⟨x, g⟩ →
      g.Accessible .load .word (g.gpAddress (sext x (immW imm))).toNat →
      ∃ g' : Hart x, exec (.lwgp rd imm) ⟨x, g⟩ = .next ⟨x, g'⟩ ∧
        g.RegisterResult g' rd (((h.readReg rs2).setWidth 32).signExtend x.bits)) ∧
    (∀ imm : BitVec 17, exec (.sdgp rs2 imm) ⟨x, h⟩ = .next ⟨x, g⟩ →
      g.Accessible .load .double (g.gpAddress (sext x (immD imm))).toNat →
      ∃ g' : Hart x, exec (.ldgp rd imm) ⟨x, g⟩ = .next ⟨x, g'⟩ ∧ g.RegisterResult g' rd (h.readReg rs2))

/-- The outcomes of a data access that does not pass the checks, in their order, for each of the eleven memory
instructions that exists (rules R41, R42, R47, R182, R185, R186; decisions D8, D19, D30): an access that wraps is
refused; a misaligned one under `MISALIGNED_DATA = fault` raises the misalignment fault; one that is not admitted, whole
if aligned, byte by byte if split, raises the access fault. `info` is the effective address. Three clauses rest on the
model's reading: a store that also overlaps the program text answers the outcome of the check and not the refusal of rule
R56 (log entry 16); an access that is both misaligned and not admitted reports the misalignment, as rule R186 has it with
the warning that hardware may rank them the other way (log entry 18); a split access checks all its bytes first and
reports the effective address of the whole access (log entry 19). -/
def Obligations.AccessesThatFailTheChecksStop : Prop :=
  ∀ (x : XLen) (h : Hart x) (i : Instr) (kind : AccessKind) (size : AccessSize) (off : Int),
    i.access h.launch.uloadOffsetExt = some (kind, size, off) → i.WellFormed x h.launch.lwugpOnRv32 →
    let ea : Nat := (h.dataAddress off).toNat
    (2 ^ x.bits < ea + size.bytes → exec i ⟨x, h⟩ = .refused (.wrapsAddressSpace ea)) ∧
    (ea + size.bytes ≤ 2 ^ x.bits → ea % size.bytes ≠ 0 → h.launch.misaligned = .fault →
      exec i ⟨x, h⟩ = .fault
        (if kind = .load then .loadAddressMisaligned h.pc.toNat ea else .storeAddressMisaligned h.pc.toNat ea)) ∧
    (ea + size.bytes ≤ 2 ^ x.bits →
      (ea % size.bytes = 0 ∧ h.launch.admits kind size ea = false) ∨
      (ea % size.bytes ≠ 0 ∧ h.launch.misaligned = .split ∧
        ∃ k : Nat, k < size.bytes ∧ h.launch.admits kind .byte (ea + k) = false) →
      exec i ⟨x, h⟩ = .fault
        (if kind = .load then .loadAccessFault h.pc.toNat ea else .storeAccessFault h.pc.toNat ea))

/-- A load of bytes of which one holds no value is refused (rules R201, R210 (e); decision D24). -/
def Obligations.LoadsOfValuelessBytesAreRefused : Prop :=
  ∀ (x : XLen) (h : Hart x) (i : Instr) (size : AccessSize) (off : Int),
    i.access h.launch.uloadOffsetExt = some (.load, size, off) → i.WellFormed x h.launch.lwugpOnRv32 →
    h.Accessible .load size (h.dataAddress off).toNat →
    (∃ k : Nat, k < size.bytes ∧ h.mem.read ((h.dataAddress off).toNat + k) = none) →
    exec i ⟨x, h⟩ = .refused (.noValueInMemory (h.dataAddress off).toNat)

/-- A store that passes the checks and overlaps a word of the program text is refused (rules R56, R201, R215; decision
D23; the order after the checks is log entry 16). -/
def Obligations.StoresToProgramTextAreRefused : Prop :=
  ∀ (x : XLen) (h : Hart x) (i : Instr) (size : AccessSize) (off : Int),
    i.access h.launch.uloadOffsetExt = some (.store, size, off) → i.WellFormed x h.launch.lwugpOnRv32 →
    h.Accessible .store size (h.dataAddress off).toNat →
    (∃ t ∈ h.launch.text, t < (h.dataAddress off).toNat + size.bytes ∧ (h.dataAddress off).toNat < t + 4) →
    exec i ⟨x, h⟩ = .refused (.storeOverlapsText (h.dataAddress off).toNat)

/-! ## Encoding -/

/-- Decoding the encoding of a well-formed instruction gives it back, for every instruction, every operand and every
choice of distinct function codes (rules R72 to R90; decision D13). -/
def Obligations.DecodeOfEncodeIsTheInstruction : Prop :=
  ∀ (x : XLen) (lw : LwugpOnRv32) (c : Codes) (i : Instr), c.Distinct → i.WellFormed x lw →
    decode x lw c (encode c i) = .instr i

/-- A word that decodes to an instruction is that instruction's encoding: no bit of a word is ignored, so no two words
are one instruction (rules R72 to R91; decision D16). -/
def Obligations.EncodeOfDecodeIsTheWord : Prop :=
  ∀ (x : XLen) (lw : LwugpOnRv32) (c : Codes) (insn : BitVec 32) (i : Instr),
    decode x lw c insn = .instr i → encode c i = insn

/-- Decoding yields only instructions that exist at the given `XLEN` (rules R90, R91, R93, R148). -/
def Obligations.DecodingYieldsWellFormedInstructions : Prop :=
  ∀ (x : XLen) (lw : LwugpOnRv32) (c : Codes) (insn : BitVec 32) (i : Instr),
    decode x lw c insn = .instr i → i.WellFormed x lw

/-- Words of formats BB, BC, BF and GSD decode to the fields of their tables. The source's tables of BBC, BBS, BEQC, BFOS,
BFOZ and SDGP are well formed (rules R74, R75, R77, R83). The clause of BNEC is not one of these: its printed table lost
its `cimm[4:0]` cell, and the spec infers that it is laid out as BEQC is (rule R75, conflict C2). Format BC is the same on
both widths; formats BF and BB have 6-bit positions on RV64 and 5-bit ones, with the printed zero bits, on RV32; format
GSD is read on RV64. -/
def Obligations.DecodeReadsTheWellFormedFormats : Prop :=
  ∀ (lw : LwugpOnRv32) (c : Codes) (w : BitVec 32),
    let rd : Reg := (w.extractLsb' 7 5).toFin
    let rs1 : Reg := (w.extractLsb' 15 5).toFin
    let rs2 : Reg := (w.extractLsb' 20 5).toFin
    let imm : BitVec 10 := w.extractLsb' 31 1 ++ w.extractLsb' 25 5 ++ w.extractLsb' 8 4
    let cimm7 : BitVec 7 := w.extractLsb' 30 1 ++ w.extractLsb' 7 1 ++ w.extractLsb' 20 5
    let five (lo : Nat) : Fin 64 := ((w.extractLsb' lo 5).setWidth 6).toFin
    let six (lo : Nat) : Fin 64 := (w.extractLsb' lo 6).toFin
    let bitIndex : Fin 64 := (w.extractLsb' 7 1 ++ w.extractLsb' 20 5 : BitVec 6).toFin
    let imm19 : BitVec 17 :=
      w.extractLsb' 31 1 ++ w.extractLsb' 8 2 ++ w.extractLsb' 15 2 ++ w.extractLsb' 17 3 ++ w.extractLsb' 7 1 ++
        w.extractLsb' 25 6 ++ w.extractLsb' 10 2
    (w.extractLsb' 0 7 = 0b1011011#7 →
      (w.extractLsb' 12 3 = 0b101#3 → ∀ x : XLen, decode x lw c w = .instr (.beqc rs1 cimm7 imm)) ∧
      (w.extractLsb' 12 3 = 0b110#3 → ∀ x : XLen, decode x lw c w = .instr (.bnec rs1 cimm7 imm)) ∧
      (w.extractLsb' 12 3 = 0b010#3 →
        decode .rv64 lw c w = .instr (.bfoz rd rs1 (six 26) (six 20)) ∧
        (w.getLsbD 31 = false → w.getLsbD 25 = false →
          decode .rv32 lw c w = .instr (.bfoz rd rs1 (five 26) (five 20)))) ∧
      (w.extractLsb' 12 3 = 0b011#3 →
        decode .rv64 lw c w = .instr (.bfos rd rs1 (six 26) (six 20)) ∧
        (w.getLsbD 31 = false → w.getLsbD 25 = false →
          decode .rv32 lw c w = .instr (.bfos rd rs1 (five 26) (five 20)))) ∧
      (w.extractLsb' 12 3 = 0b111#3 → w.getLsbD 30 = false →
        decode .rv64 lw c w = .instr (.bbc rs1 bitIndex imm) ∧
        (w.getLsbD 7 = false → decode .rv32 lw c w = .instr (.bbc rs1 (five 20) imm))) ∧
      (w.extractLsb' 12 3 = 0b111#3 → w.getLsbD 30 = true →
        decode .rv64 lw c w = .instr (.bbs rs1 bitIndex imm) ∧
        (w.getLsbD 7 = false → decode .rv32 lw c w = .instr (.bbs rs1 (five 20) imm)))) ∧
    (w.extractLsb' 0 7 = 0b0101011#7 → w.extractLsb' 12 3 = 0b111#3 →
      decode .rv64 lw c w = .instr (.sdgp rs2 imm19))

/-- The layouts the spec recovers from damaged tables or has from general knowledge, bit by bit: formats GB for LBGP and
LBUGP (rule R78, conflict C4), GSB (rule R79), GH (rule R80), GW (rule R81), GD (rule R82), GSH and GSW (rule R84), and
format R for the LEA forms of Tier G (rule R88). Every word with the major opcode and the function code of an instruction
decodes to it, with the register and the immediate assembled as the rule writes it. The code of LWGP is printed; the
others are parameters, distinct as decision D13 asks (rules R85, R86, R87). LDGP and the four `.ze` forms are read on
RV64, and LWUGP where it is legal (rules R93, R148). -/
def Obligations.DecodeReadsTheRecoveredFormats : Prop :=
  ∀ (x : XLen) (lw : LwugpOnRv32) (c : Codes) (w : BitVec 32), c.Distinct →
    let rd : Reg := (w.extractLsb' 7 5).toFin
    let rs1 : Reg := (w.extractLsb' 15 5).toFin
    let rs2 : Reg := (w.extractLsb' 20 5).toFin
    let gb : BitVec 18 :=
      w.extractLsb' 31 1 ++ w.extractLsb' 15 2 ++ w.extractLsb' 17 3 ++ w.extractLsb' 20 1 ++ w.extractLsb' 21 10 ++
        w.extractLsb' 14 1
    let gsb : BitVec 18 :=
      w.extractLsb' 31 1 ++ w.extractLsb' 15 2 ++ w.extractLsb' 17 3 ++ w.extractLsb' 7 1 ++ w.extractLsb' 25 6 ++
        w.extractLsb' 8 4 ++ w.extractLsb' 14 1
    let gh : BitVec 17 :=
      w.extractLsb' 31 1 ++ w.extractLsb' 15 2 ++ w.extractLsb' 17 3 ++ w.extractLsb' 20 1 ++ w.extractLsb' 21 10
    let gw : BitVec 17 :=
      w.extractLsb' 31 1 ++ w.extractLsb' 21 1 ++ w.extractLsb' 15 2 ++ w.extractLsb' 17 3 ++ w.extractLsb' 20 1 ++
        w.extractLsb' 22 9
    let gd : BitVec 17 :=
      w.extractLsb' 31 1 ++ w.extractLsb' 21 2 ++ w.extractLsb' 15 2 ++ w.extractLsb' 17 3 ++ w.extractLsb' 20 1 ++
        w.extractLsb' 23 8
    let gsh : BitVec 17 :=
      w.extractLsb' 31 1 ++ w.extractLsb' 15 2 ++ w.extractLsb' 17 3 ++ w.extractLsb' 7 1 ++ w.extractLsb' 25 6 ++
        w.extractLsb' 8 4
    let gsw : BitVec 17 :=
      w.extractLsb' 31 1 ++ w.extractLsb' 8 1 ++ w.extractLsb' 15 2 ++ w.extractLsb' 17 3 ++ w.extractLsb' 7 1 ++
        w.extractLsb' 25 6 ++ w.extractLsb' 9 3
    let reads (i : Instr) : Prop := decode x lw c w = .instr i
    (w.extractLsb' 0 7 = 0b0001011#7 →
      (w.extractLsb' 12 2 = c.f2Lbgp → reads (.lbgp rd gb)) ∧
      (w.extractLsb' 12 2 = c.f2Lbugp → reads (.lbugp rd gb)) ∧
      (w.extractLsb' 12 2 = c.f2Sbgp → reads (.sbgp rs2 gsb))) ∧
    (w.extractLsb' 0 7 = 0b0101011#7 →
      (w.extractLsb' 12 3 = c.f3Lhgp → reads (.lhgp rd gh)) ∧
      (w.extractLsb' 12 3 = c.f3Lhugp → reads (.lhugp rd gh)) ∧
      (w.extractLsb' 12 3 = 0b010#3 → reads (.lwgp rd gw)) ∧
      (w.extractLsb' 12 3 = c.f3Lwugp → x = .rv64 ∨ lw = .legal → reads (.lwugp rd gw)) ∧
      (w.extractLsb' 12 3 = c.f3Ldgp → x = .rv64 → reads (.ldgp rd gd)) ∧
      (w.extractLsb' 12 3 = c.f3Shgp → reads (.shgp rs2 gsh)) ∧
      (w.extractLsb' 12 3 = c.f3Swgp → reads (.swgp rs2 gsw))) ∧
    (w.extractLsb' 0 7 = 0b1011011#7 → w.extractLsb' 12 3 = 0b000#3 →
      (w.extractLsb' 25 7 = c.f7LeaD → reads (.leaD rd rs1 rs2)) ∧
      (x = .rv64 →
        (w.extractLsb' 25 7 = c.f7LeaBZe → reads (.leaBZe rd rs1 rs2)) ∧
        (w.extractLsb' 25 7 = c.f7LeaHZe → reads (.leaHZe rd rs1 rs2)) ∧
        (w.extractLsb' 25 7 = c.f7LeaWZe → reads (.leaWZe rd rs1 rs2)) ∧
        (w.extractLsb' 25 7 = c.f7LeaDZe → reads (.leaDZe rd rs1 rs2))))

/-- A `1` in a bit that the RV32 format prints as `0` makes the word `Illegal` on RV32 (rule R91, decision D16). -/
def Obligations.Rv32ZeroBitsMustBeZero : Prop :=
  ∀ (lw : LwugpOnRv32) (c : Codes) (w : BitVec 32), w.extractLsb' 0 7 = 0b1011011#7 →
    (w.extractLsb' 12 3 = 0b010#3 ∨ w.extractLsb' 12 3 = 0b011#3 →
      (w.getLsbD 31 = true ∨ w.getLsbD 25 = true) → decode .rv32 lw c w = .illegal .zeroBitSet) ∧
    (w.extractLsb' 12 3 = 0b111#3 → w.getLsbD 7 = true → decode .rv32 lw c w = .illegal .zeroBitSet)

/-- The encodings of LDGP, SDGP and the four `.ze` forms are `Illegal` on RV32 (rule R93, decision D17). -/
def Obligations.Rv64OnlyWordsAreIllegalOnRv32 : Prop :=
  ∀ (lw : LwugpOnRv32) (c : Codes) (i : Instr), c.Distinct → i.rv64Only = true →
    decode .rv32 lw c (encode c i) = .illegal .rv64Only

/-- The encodings the document does not list are `Unknown`, and with the default function codes they are exactly these:
another major opcode; Custom-2 with `insn[14:12]` 001 or 100; Custom-2 with `insn[14:12]` 000 and a funct7 outside
0000101 to 0001011 (rule R92, decision D18). -/
def Obligations.UnlistedWordsAreUnknown : Prop :=
  ∀ (x : XLen) (lw : LwugpOnRv32) (w : BitVec 32),
    (∃ why : UnknownReason, decode x lw .published w = .unknown why) ↔
      (w.extractLsb' 0 7 ≠ 0b0001011#7 ∧ w.extractLsb' 0 7 ≠ 0b0101011#7 ∧ w.extractLsb' 0 7 ≠ 0b1011011#7) ∨
      (w.extractLsb' 0 7 = 0b1011011#7 ∧
        (w.extractLsb' 12 3 = 0b001#3 ∨ w.extractLsb' 12 3 = 0b100#3 ∨
          (w.extractLsb' 12 3 = 0b000#3 ∧
            ((w.extractLsb' 25 7).toNat < 5 ∨ 11 < (w.extractLsb' 25 7).toNat))))

/-- Words written out from the spec's formats decode to the instructions they stand for: one of each family (rule R110,
R122, R132, R161, R142, R171, worked examples; published function codes). -/
def Obligations.SampleWordsDecode : Prop :=
  decode .rv64 .legal .published 0xFFFFD50B#32 = .instr (.addigp 10 0x3FFFF#18) ∧
  decode .rv32 .legal .published 0x0005745B#32 = .instr (.bbc 10 0 4#10) ∧
  decode .rv32 .legal .published 0x3CC5365B#32 = .instr (.bfos 12 10 15 12) ∧
  decode .rv32 .legal .published 0x0A6282DB#32 = .instr (.leaH 5 5 6) ∧
  decode .rv32 .legal .published 0x0040458B#32 = .instr (.lbgp 11 5#18) ∧
  decode .rv32 .legal .published 0x02B0310B#32 = .instr (.sbgp 11 0x22#18)

/-- A word placed where the next instruction is fetched is the one the next step runs: at a pc whose word does not wrap,
the step of the placed state is `exec` of the instruction the word decodes to, whatever its tier, since the load the
placing stands for admits it (the host interface, log entries 5 and 13; rules R48, R183, R210). -/
def Obligations.PlacedWordRunsNext : Prop :=
  ∀ (s : State) (w : Nat) (i : Instr), s.hart.pc.toNat + 4 ≤ 2 ^ s.xlen.bits →
    decode s.xlen s.hart.launch.lwugpOnRv32 s.hart.launch.codes (BitVec.ofNat 32 w) = .instr i →
    step (s.withFetchWord 32 w) = exec i (s.withFetchWord 32 w)
end

