-- ==== Sys2Proof/Laws/Memory.lean ====
section
/-! SUPPORT. The laws of memory: a read after a write, the canonical form is kept, a canonical memory is determined by
what it reads, and what the multi-byte operations read and write. -/

namespace Sys2Proof.Machine

@[simp] theorem Memory.read_nil (a : Nat) : Memory.read [] a = none := rfl

theorem Memory.read_cons (c : Host.Cell) (m : Memory) (a : Nat) :
    Memory.read (c :: m) a = if c.1 = a then some c.2 else Memory.read m a := rfl

/-- A read after a write of one byte. -/
theorem Memory.read_write (m : Memory) (a k : Nat) (v : Byte) :
    (Memory.write m a v).read k = if k = a then some v else m.read k := by
  by_cases e : k = a
  · subst e
    rw [if_pos rfl]
    induction m with
    | nil => simp [Memory.write, Memory.read_cons]
    | cons c m ih =>
      obtain ⟨b, w⟩ := c
      unfold Memory.write
      split
      · simp [Memory.read_cons]
      · split
        · simp [Memory.read_cons]
        · next h1 h2 => rw [Memory.read_cons, if_neg (fun e => h2 e.symm), ih]
  · rw [if_neg e]
    have e' : a ≠ k := fun h => e h.symm
    induction m with
    | nil => simp [Memory.write, Memory.read_cons, e']
    | cons c m ih =>
      obtain ⟨b, w⟩ := c
      unfold Memory.write
      split
      · rw [Memory.read_cons, if_neg e']
      · split
        · next h1 h2 => subst h2; rw [Memory.read_cons, Memory.read_cons, if_neg e', if_neg e']
        · rw [Memory.read_cons, Memory.read_cons, ih]

/-- Every address of a memory after a write is the written one or was there before. -/
theorem Memory.mem_write {m : Memory} {a : Nat} {v : Byte} {c : Host.Cell} (hc : c ∈ Memory.write m a v) :
    c = (a, v) ∨ c ∈ m := by
  induction m with
  | nil => simpa [Memory.write] using hc
  | cons d m ih =>
    obtain ⟨b, w⟩ := d
    unfold Memory.write at hc
    split at hc
    · simpa using hc
    · split at hc
      · rcases List.mem_cons.mp hc with h | h
        · exact .inl h
        · exact .inr (List.mem_cons_of_mem _ h)
      · rcases List.mem_cons.mp hc with h | h
        · exact .inr (by simp [h])
        · rcases ih h with h | h
          · exact .inl h
          · exact .inr (List.mem_cons_of_mem _ h)

/-- A write of one byte keeps the canonical form. -/
theorem Memory.write_wf {m : Memory} (hm : m.wf) (a : Nat) (v : Byte) : (Memory.write m a v).wf := by
  induction m with
  | nil => simp [Memory.write, Memory.wf]
  | cons c m ih =>
    obtain ⟨b, w⟩ := c
    have hb : ∀ d ∈ m, b < d.1 := (List.pairwise_cons.mp hm).1
    have hm' : Memory.wf m := (List.pairwise_cons.mp hm).2
    unfold Memory.write
    split
    · next hab =>
      refine List.pairwise_cons.mpr ⟨?_, hm⟩
      intro d hd
      rcases List.mem_cons.mp hd with rfl | hd
      · exact hab
      · exact Nat.lt_trans hab (hb d hd)
    · split
      · next hab => subst hab; exact List.pairwise_cons.mpr ⟨hb, hm'⟩
      · next h1 h2 =>
        refine List.pairwise_cons.mpr ⟨?_, ih hm'⟩
        intro d hd
        rcases Memory.mem_write hd with rfl | hd
        · show b < a; omega
        · exact hb d hd

/-- Writing bytes keeps the canonical form. -/
theorem Memory.writeBytes_wf {m : Memory} (hm : m.wf) (a : Nat) (bs : List Byte) : (m.writeBytes a bs).wf := by
  induction bs generalizing m a with
  | nil => exact hm
  | cons b bs ih => exact ih (Memory.write_wf hm a b) (a + 1)

/-- Every address after writing bytes is one of the written ones or was there before. -/
theorem Memory.mem_writeBytes {m : Memory} {a : Nat} {bs : List Byte} {c : Host.Cell} (hc : c ∈ m.writeBytes a bs) :
    (a ≤ c.1 ∧ c.1 < a + bs.length) ∨ c ∈ m := by
  induction bs generalizing m a with
  | nil => exact .inr hc
  | cons b bs ih =>
    rcases ih hc with h | h
    · simp only [List.length_cons]; omega
    · rcases Memory.mem_write h with rfl | h
      · left; simp
      · exact .inr h

/-- A read after writing bytes. -/
theorem Memory.read_writeBytes (m : Memory) (a k : Nat) (bs : List Byte) :
    (m.writeBytes a bs).read k = if h : a ≤ k ∧ k < a + bs.length then some (bs[k - a]'(by omega)) else m.read k := by
  induction bs generalizing m a with
  | nil =>
    have : ¬ (a ≤ k ∧ k < a + ([] : List Byte).length) := by simp
    rw [dif_neg this]; rfl
  | cons b bs ih =>
    show ((m.write a b).writeBytes (a + 1) bs).read k = _
    rw [ih]
    by_cases h1 : a + 1 ≤ k ∧ k < a + 1 + bs.length
    · have h2 : a ≤ k ∧ k < a + (b :: bs).length := by simp only [List.length_cons]; omega
      rw [dif_pos h1, dif_pos h2]
      congr 1
      have : k - a = (k - (a + 1)) + 1 := by omega
      simp [this]
    · rw [dif_neg h1, Memory.read_write]
      by_cases e : k = a
      · subst e
        have h2 : k ≤ k ∧ k < k + (b :: bs).length := by simp
        rw [if_pos rfl, dif_pos h2]; simp
      · have h2 : ¬ (a ≤ k ∧ k < a + (b :: bs).length) := by simp only [List.length_cons]; omega
        rw [if_neg e, dif_neg h2]

/-- Outside the written bytes a read is as before. -/
theorem Memory.read_writeBytes_outside {m : Memory} {a k : Nat} {bs : List Byte}
    (hk : k < a ∨ a + bs.length ≤ k) : (m.writeBytes a bs).read k = m.read k := by
  rw [Memory.read_writeBytes, dif_neg (by omega)]

/-- Inside the written bytes a read gives the byte written. -/
theorem Memory.read_writeBytes_inside {m : Memory} {a k : Nat} {bs : List Byte} (hk : k < bs.length) :
    (m.writeBytes a bs).read (a + k) = some bs[k] := by
  rw [Memory.read_writeBytes, dif_pos (by omega)]
  congr 1
  have : a + k - a = k := by omega
  simp [this]

/-- What reading `n` bytes answers, byte by byte. -/
theorem Memory.readBytes_eq_some {m : Memory} {a n : Nat} {bs : List Byte} :
    m.readBytes a n = some bs ↔ bs.length = n ∧ ∀ (k : Nat) (hk : k < bs.length), m.read (a + k) = some bs[k] := by
  induction n generalizing a bs with
  | zero =>
    constructor
    · intro h
      have : bs = [] := by simpa [Memory.readBytes, eq_comm] using h
      subst this; simp
    · rintro ⟨h, -⟩
      have : bs = [] := List.length_eq_zero_iff.mp h
      subst this; rfl
  | succ n ih =>
    constructor
    · intro h
      unfold Memory.readBytes at h
      split at h
      · next b cs hb hcs =>
        obtain rfl : b :: cs = bs := by simpa using h
        obtain ⟨hl, hr⟩ := ih.mp hcs
        refine ⟨by simp [hl], ?_⟩
        intro k hk
        cases k with
        | zero => simpa using hb
        | succ k =>
          have hk' : k < cs.length := by simpa using hk
          have := hr k hk'
          rw [show a + (k + 1) = a + 1 + k by omega]
          simpa using this
      · simp at h
    · rintro ⟨hl, hr⟩
      cases bs with
      | nil => simp at hl
      | cons b cs =>
        have hb : m.read a = some b := hr 0 (by simp)
        have hcs : m.readBytes (a + 1) n = some cs := by
          refine ih.mpr ⟨by simpa using hl, ?_⟩
          intro k hk
          have := hr (k + 1) (by simpa using hk)
          rw [show a + 1 + k = a + (k + 1) by omega]
          simpa using this
        simp [Memory.readBytes, hb, hcs]

@[simp] theorem leBytes_length (n v : Nat) : (leBytes n v).length = n := by
  induction n generalizing v with
  | zero => rfl
  | succ n ih => simp [leBytes, ih]

@[simp] theorem inOrder_length (e : Endian) (bs : List Byte) : (inOrder e bs).length = bs.length := by
  cases e <;> simp [inOrder]

/-- The bytes of a number read back as that number (rule R45). -/
theorem leValue_leBytes (n v : Nat) : leValue (leBytes n v) = v % 256 ^ n := by
  induction n generalizing v with
  | zero => simp [leBytes, leValue, Nat.mod_one]
  | succ n ih =>
    have hv : leValue (leBytes (n + 1) v) = v % 256 + 256 * (v / 256 % 256 ^ n) := by
      rw [← ih]; simp [leBytes, leValue]
    rw [hv, Nat.pow_succ, Nat.mul_comm (256 ^ n) 256, Nat.mod_mul]

/-- Byte `k` of the little-endian bytes holds bits `8k+7 : 8k` (rule R45). -/
theorem leBytes_getElem (n v k : Nat) (hk : k < (leBytes n v).length) :
    (leBytes n v)[k] = BitVec.ofNat 8 (v / 256 ^ k) := by
  induction n generalizing v k with
  | zero => simp [leBytes] at hk
  | succ n ih =>
    cases k with
    | zero => simp [leBytes]
    | succ k =>
      simp only [leBytes, List.getElem_cons_succ]
      rw [ih, Nat.div_div_eq_div_mul, Nat.pow_succ, Nat.mul_comm 256]

/-- Two canonical memories that read the same everywhere are equal. -/
theorem Memory.ext_of_wf {m m' : Memory} (hm : m.wf) (hm' : m'.wf) (h : ∀ a, m.read a = m'.read a) : m = m' := by
  have low : ∀ {b : Nat} {l : Memory}, (∀ d ∈ l, b < d.1) → ∀ a, a ≤ b → Memory.read l a = none := by
    intro b l hl a ha
    induction l with
    | nil => rfl
    | cons d l ih =>
      have h1 : b < d.1 := hl d (by simp)
      have h2 : d.1 ≠ a := by omega
      rw [Memory.read_cons, if_neg h2]
      exact ih fun e he => hl e (List.mem_cons_of_mem _ he)
  induction m generalizing m' with
  | nil =>
    cases m' with
    | nil => rfl
    | cons d m' => have := h d.1; simp [Memory.read_cons] at this
  | cons c m ih =>
    cases m' with
    | nil => have := h c.1; simp [Memory.read_cons] at this
    | cons d m' =>
      obtain ⟨hc, hm⟩ := List.pairwise_cons.mp hm
      obtain ⟨hd, hm'⟩ := List.pairwise_cons.mp hm'
      have key : c.1 = d.1 := by
        rcases Nat.lt_trichotomy c.1 d.1 with lt | e | lt
        · have e1 := h c.1
          rw [Memory.read_cons, if_pos rfl, Memory.read_cons, if_neg (by omega),
            low hd c.1 (by omega)] at e1
          cases e1
        · exact e
        · have e1 := h d.1
          rw [Memory.read_cons, if_neg (by omega), low hc d.1 (by omega), Memory.read_cons, if_pos rfl] at e1
          cases e1
      have val : c.2 = d.2 := by
        have e1 := h c.1
        rw [Memory.read_cons, if_pos rfl, Memory.read_cons, if_pos key.symm] at e1
        exact Option.some.inj e1
      have rest : m = m' := by
        refine ih hm hm' ?_
        intro a
        by_cases e : a = c.1
        · subst e
          rw [low hc c.1 (Nat.le_refl _), low hd c.1 (by omega)]
        · have e1 := h a
          rwa [Memory.read_cons, if_neg (fun e' => e e'.symm), Memory.read_cons,
            if_neg (fun e' => e (by omega))] at e1
      rw [rest, show c = d from Prod.ext key val]

end Sys2Proof.Machine
end

