-- ==== Sys2Proof/Laws/State.lean ====
section
/-! SUPPORT. The small lemmas of the state: one per field per update, and a register read after a register write. -/

namespace Sys2Proof.Machine

variable {x : XLen} (h : Hart x)

@[simp] theorem Hart.setPc_pc (t : Word x) : (h.setPc t).pc = t := rfl
@[simp] theorem Hart.setPc_regs (t : Word x) : (h.setPc t).regs = h.regs := rfl
@[simp] theorem Hart.setPc_mem (t : Word x) : (h.setPc t).mem = h.mem := rfl
@[simp] theorem Hart.setPc_launch (t : Word x) : (h.setPc t).launch = h.launch := rfl

@[simp] theorem Hart.advance_pc : h.advance.pc = h.pc + 4 := rfl
@[simp] theorem Hart.advance_regs : h.advance.regs = h.regs := rfl
@[simp] theorem Hart.advance_mem : h.advance.mem = h.mem := rfl
@[simp] theorem Hart.advance_launch : h.advance.launch = h.launch := rfl

@[simp] theorem Hart.readReg_setPc (t : Word x) (r : Reg) : (h.setPc t).readReg r = h.readReg r := rfl
@[simp] theorem Hart.readReg_advance (r : Reg) : h.advance.readReg r = h.readReg r := rfl
@[simp] theorem Hart.readReg_withMem (m : Memory) (r : Reg) :
    Hart.readReg { h with mem := m } r = h.readReg r := rfl

@[simp] theorem Hart.readReg_zero : h.readReg 0 = 0 := rfl

@[simp] theorem Hart.writeReg_zero (v : Word x) : h.writeReg 0 v = h := rfl

@[simp] theorem Hart.writeReg_pc (r : Reg) (v : Word x) : (h.writeReg r v).pc = h.pc := by
  unfold Hart.writeReg; split <;> rfl

@[simp] theorem Hart.writeReg_mem (r : Reg) (v : Word x) : (h.writeReg r v).mem = h.mem := by
  unfold Hart.writeReg; split <;> rfl

@[simp] theorem Hart.writeReg_launch (r : Reg) (v : Word x) : (h.writeReg r v).launch = h.launch := by
  unfold Hart.writeReg; split <;> rfl

/-- The one fact about reading a register after a write (rules R10, R21). -/
theorem Hart.readReg_writeReg (r r' : Reg) (v : Word x) :
    (h.writeReg r v).readReg r' = if r' = 0 then 0 else if r' = r then v else h.readReg r' := by
  unfold Hart.readReg Hart.writeReg
  by_cases h0 : r' = 0
  · simp [h0]
  · by_cases h1 : r' = r
    · subst h1; simp [h0]
    · by_cases h2 : r = 0
      · simp [h0, h2]
      · have : r.val ≠ r'.val := fun e => h1 (Fin.ext e.symm)
        simp [h0, h1, h2, this]

/-- A register write never touches the slot of `x0` (rule R21). -/
@[simp] theorem Hart.writeReg_slotZero (r : Reg) (v : Word x) : (h.writeReg r v).regs[0] = h.regs[0] := by
  unfold Hart.writeReg
  by_cases h0 : r = 0
  · simp [h0]
  · have : r.val ≠ 0 := fun e => h0 (Fin.ext e)
    simp [h0, this]

end Sys2Proof.Machine
end

