-- ==== Sys2Proof/Laws/Ops.lean ====
section
/-! SUPPORT. One lemma per shared operation that says what it can do: `andThen`, `onHart`, the checks of an access, the
two memory primitives, a branch and the end of a register instruction. -/

namespace Sys2Proof.Machine

/-! ## Sequencing -/

section
variable {α β : Type}

@[simp] theorem andThen_next (a : α) (k : α → Result β) : andThen (.next a) k = k a := rfl
@[simp] theorem andThen_fault (f : Fault) (k : α → Result β) : andThen (.fault f) k = .fault f := rfl
@[simp] theorem andThen_refused (e : Refusal) (k : α → Result β) : andThen (.refused e) k = .refused e := rfl

theorem andThen_eq_next {r : Result α} {k : α → Result β} {b : β} :
    andThen r k = .next b ↔ ∃ a, r = .next a ∧ k a = .next b := by
  cases r <;> simp [andThen]

theorem andThen_eq_fault {r : Result α} {k : α → Result β} {f : Fault} :
    andThen r k = .fault f ↔ r = .fault f ∨ ∃ a, r = .next a ∧ k a = .fault f := by
  cases r <;> simp [andThen]
end

/-- A meaning run on the machine's hart, on a state written as width and hart. -/
@[simp] theorem State.onHart_mk {x : XLen} (h : Hart x) (f : Hart x → Result (Hart x)) :
    State.onHart ⟨x, h⟩ f = andThen (f h) fun h' => .next ⟨x, h'⟩ := rfl

theorem State.onHart_eq_next {x : XLen} {h h' : Hart x} {f : Hart x → Result (Hart x)} :
    State.onHart ⟨x, h⟩ f = .next ⟨x, h'⟩ ↔ f h = .next h' := by
  rw [State.onHart_mk, andThen_eq_next]
  constructor
  · rintro ⟨a, ha, hk⟩
    cases hk
    exact ha
  · intro e
    exact ⟨h', e, rfl⟩

theorem State.onHart_eq_fault {x : XLen} {h : Hart x} {f : Hart x → Result (Hart x)} {e : Fault} :
    State.onHart ⟨x, h⟩ f = .fault e ↔ f h = .fault e := by
  rw [State.onHart_mk, andThen_eq_fault]
  simp

@[simp] theorem Hart.raise_ne_next {x : XLen} {α : Type} (h : Hart x) (f : Nat → Nat → Fault) (i : Nat) (a : α) :
    h.raise f i ≠ .next a := by simp [Hart.raise]

@[simp] theorem Hart.raiseIllegal_ne_next {x : XLen} {α : Type} (h : Hart x) (i : Instr) (a : α) :
    h.raiseIllegal i ≠ .next a := by simp [Hart.raiseIllegal]

/-! ## Instructions that do not exist at a width -/

theorem Hart.onlyRv64_ok {x : XLen} {h : Hart x} {i : Instr} {k : Result (Hart x)} (ok : x = .rv64) :
    h.onlyRv64 i k = k := by
  subst ok; rfl

theorem Hart.onlyRv64_eq_next {x : XLen} {h h' : Hart x} {i : Instr} {k : Result (Hart x)}
    (e : h.onlyRv64 i k = .next h') : k = .next h' := by
  unfold Hart.onlyRv64 at e
  split at e
  · exact absurd e (by simp)
  · exact e

theorem Hart.onlyPositions_eq_next {x : XLen} {h h' : Hart x} {i : Instr} {k : Result (Hart x)}
    (e : h.onlyPositions i k = .next h') : k = .next h' := by
  unfold Hart.onlyPositions at e
  split at e
  · exact e
  · exact absurd e (by simp)

theorem Hart.onlyPositions_ok {x : XLen} {h : Hart x} {i : Instr} {k : Result (Hart x)} (ok : i.PositionsOk x) :
    h.onlyPositions i k = k := by
  unfold Hart.onlyPositions
  rw [if_pos (by simpa using ok)]

theorem Hart.onlyLwugp_eq_next {x : XLen} {h h' : Hart x} {i : Instr} {k : Result (Hart x)}
    (e : h.onlyLwugp i k = .next h') : k = .next h' := by
  unfold Hart.onlyLwugp at e
  split at e
  · exact absurd e (by simp)
  · exact e

theorem Hart.onlyLwugp_ok {x : XLen} {h : Hart x} {i : Instr} {k : Result (Hart x)}
    (ok : x = .rv64 ∨ h.launch.lwugpOnRv32 = .legal) : h.onlyLwugp i k = k := by
  unfold Hart.onlyLwugp
  rw [if_neg]
  rintro ⟨h1, h2⟩
  rcases ok with ok | ok
  · rw [h1] at ok; exact absurd ok (by decide)
  · rw [h2] at ok; exact absurd ok (by decide)

/-! ## Access checks (rules R41, R42, R47) -/

theorem admitsBytes_iff (l : Launch) (kind : AccessKind) (a n : Nat) :
    l.admitsBytes kind a n = true ↔ ∀ k : Nat, k < n → l.admits kind .byte (a + k) = true := by
  induction n generalizing a with
  | zero => simp [Launch.admitsBytes]
  | succ n ih =>
    rw [Launch.admitsBytes, Bool.and_eq_true, ih]
    constructor
    · rintro ⟨h0, h1⟩ k hk
      cases k with
      | zero => exact h0
      | succ k => rw [show a + (k + 1) = a + 1 + k by omega]; exact h1 k (by omega)
    · intro h
      refine ⟨h 0 (by omega), fun k hk => ?_⟩
      rw [show a + 1 + k = a + (k + 1) by omega]; exact h (k + 1) (by omega)

/-- The checks pass exactly where the access is accessible. -/
theorem Hart.checkAccess_eq_next {x : XLen} {h : Hart x} {kind : AccessKind} {size : AccessSize} {ea : Word x} :
    h.checkAccess kind size ea = .next () ↔ h.Accessible kind size ea.toNat := by
  unfold Hart.checkAccess Hart.Accessible
  by_cases hw : 2 ^ x.bits < ea.toNat + size.bytes
  · simp [hw, Nat.not_le.mpr hw]
  · by_cases ha : ea.toNat % size.bytes = 0
    · by_cases hd : h.launch.admits kind size ea.toNat <;> simp [hw, ha, hd, Nat.not_lt.mp hw]
    · cases hm : h.launch.misaligned
      · simp [hw, ha]
      · by_cases hd : h.launch.admitsBytes kind ea.toNat size.bytes
        · simpa [hw, ha, hd, Nat.not_lt.mp hw] using (admitsBytes_iff ..).mp hd
        · simp only [hw, ha, hd, if_false]
          constructor
          · simp
          · rintro ⟨-, ⟨h0, -⟩ | ⟨-, -, h1⟩⟩
            · exact absurd h0 (by simp)
            · exact absurd ((admitsBytes_iff ..).mpr h1) (by simpa using hd)

/-! ## Values and their bytes (rule R45) -/

theorem size_bits (size : AccessSize) : size.bits = 8 * size.bytes := by cases size <;> rfl

/-- The bytes of a value, as the byte list that `leBytes` makes. -/
theorem leBytes_eq_extract {w : Nat} (v : BitVec w) (n k : Nat) (hk : k < n) :
    (leBytes n v.toNat)[k]'(by simpa using hk) = v.extractLsb' (8 * k) 8 := by
  rw [leBytes_getElem]
  apply BitVec.eq_of_toNat_eq
  simp [BitVec.extractLsb', Nat.shiftRight_eq_div_pow, Nat.pow_mul]

/-- Bytes that are the bytes of `v` assemble to `v`. -/
theorem ofNat_leValue_of_bytes {n : Nat} (v : BitVec (8 * n)) (bs : List Byte) (hl : bs.length = n)
    (hb : ∀ (k : Nat) (hk : k < bs.length), bs[k] = v.extractLsb' (8 * k) 8) : BitVec.ofNat (8 * n) (leValue bs) = v := by
  have e : bs = leBytes n v.toNat := by
    apply List.ext_getElem
    · simp [hl]
    · intro k h1 h2
      rw [hb k h1, leBytes_eq_extract v n k (by simpa using h2)]
  rw [e, leValue_leBytes]
  apply BitVec.eq_of_toNat_eq
  have : (256 : Nat) ^ n = 2 ^ (8 * n) := by rw [Nat.pow_mul]
  rw [this]
  simp

/-- The assembled value has the bytes it was assembled from. -/
theorem extract_ofNat_leValue {n : Nat} (bs : List Byte) (hl : bs.length = n) (k : Nat) (hk : k < bs.length) :
    (BitVec.ofNat (8 * n) (leValue bs)).extractLsb' (8 * k) 8 = bs[k] := by
  have lt : ∀ l : List Byte, leValue l < 256 ^ l.length := by
    intro l
    induction l with
    | nil => simp [leValue]
    | cons b l ih =>
      have := b.isLt
      simp only [leValue, List.length_cons, Nat.pow_succ]
      omega
  have e : leBytes n (leValue bs) = bs := by
    clear hk k
    induction bs generalizing n with
    | nil => subst hl; rfl
    | cons b l ih =>
      subst hl
      have hb := b.isLt
      have h1 : BitVec.ofNat 8 (leValue (b :: l)) = b := by
        apply BitVec.eq_of_toNat_eq
        simp only [leValue, BitVec.toNat_ofNat]
        omega
      have h2 : leValue (b :: l) / 256 = leValue l := by
        simp only [leValue]
        omega
      simp only [List.length_cons, leBytes, h1, h2, ih rfl]
  have hn : leValue bs < 2 ^ (8 * n) := by
    have := lt bs
    rwa [hl, show (256 : Nat) = 2 ^ 8 by rfl, ← Nat.pow_mul] at this
  have := leBytes_eq_extract (BitVec.ofNat (8 * n) (leValue bs)) n k (by omega)
  rw [← this]
  simp only [BitVec.toNat_ofNat, Nat.mod_eq_of_lt hn, e]

end Sys2Proof.Machine
end

