-- ==== Sys2Proof/Laws/Access.lean ====
section
/-! SUPPORT. What the two memory primitives, the shared load and store shapes, a branch and the end of a register
instruction answer: each once, in the terms of `Safety.lean`. -/

namespace Sys2Proof.Machine

@[simp] theorem inOrder_inOrder (e : Endian) (bs : List Byte) : inOrder e (inOrder e bs) = bs := by
  cases e <;> simp [inOrder]

/-- Element `j` of bytes in the order of `ENDIAN`, with the address arithmetic of `byteAddress`. -/
theorem inOrder_getElem (e : Endian) (bs : List Byte) (n k : Nat) (hn : bs.length = n) (hk : k < n) :
    ∃ j, ∃ hj : j < (inOrder e bs).length, byteAddress e 0 n k = j ∧ (inOrder e bs)[j] = bs[k]'(by omega) := by
  cases e with
  | little => exact ⟨k, by simpa [hn] using hk, by simp [byteAddress], rfl⟩
  | big =>
    refine ⟨n - 1 - k, by simp [inOrder, hn]; omega, by simp [byteAddress], ?_⟩
    simp only [inOrder, List.getElem_reverse, hn]
    congr 1
    omega

theorem byteAddress_add (e : Endian) (ea n k : Nat) : byteAddress e ea n k = ea + byteAddress e 0 n k := by
  cases e <;> simp [byteAddress]

theorem byteAddress_lt (e : Endian) {n k : Nat} (hk : k < n) : byteAddress e 0 n k < n := by
  cases e <;> simp [byteAddress] <;> omega

/-- Every position of an access is the address of one of its value's bytes. -/
theorem byteAddress_surj (e : Endian) {n j : Nat} (hj : j < n) : ∃ k, k < n ∧ byteAddress e 0 n k = j := by
  cases e with
  | little => exact ⟨j, hj, by simp [byteAddress]⟩
  | big => exact ⟨n - 1 - j, by omega, by simp [byteAddress]; omega⟩

variable {x : XLen} {h h' : Hart x} {size : AccessSize} {ea : Word x}

/-- The memory holds a value at an address exactly where reading its bytes gives them in order. -/
theorem Hart.holds_iff_readBytes {a : Nat} {v : BitVec size.bits} :
    h.Holds size a v ↔
      h.mem.readBytes a size.bytes = some (inOrder h.launch.endian (leBytes size.bytes v.toNat)) := by
  rw [Memory.readBytes_eq_some]
  have hl : (leBytes size.bytes v.toNat).length = size.bytes := by simp
  constructor
  · intro hv
    refine ⟨by simp, ?_⟩
    intro j hj
    obtain ⟨k, hk, e⟩ := byteAddress_surj h.launch.endian (n := size.bytes) (j := j) (by simpa using hj)
    obtain ⟨j', hj', e', ev⟩ := inOrder_getElem h.launch.endian _ _ k hl hk
    have e2 : j' = j := by omega
    subst e2
    rw [ev, leBytes_eq_extract v size.bytes k hk, ← hv k hk, byteAddress_add, e]
  · rintro ⟨-, hr⟩ k hk
    obtain ⟨j, hj, e, ev⟩ := inOrder_getElem h.launch.endian _ _ k hl hk
    rw [byteAddress_add, e, hr j hj, ev, leBytes_eq_extract v size.bytes k hk]

/-- `MemRead` of a value that is there, at an accessible address, answers that value (rule R41). -/
theorem Hart.memRead_ok {v : BitVec size.bits} (ha : h.Accessible .load size ea.toNat)
    (hv : h.Holds size ea.toNat v) : h.memRead size ea = .next v := by
  unfold Hart.memRead
  rw [Hart.checkAccess_eq_next.mpr ha, andThen_next, Hart.holds_iff_readBytes.mp hv]
  simp only [inOrder_inOrder, leValue_leBytes]
  congr 1
  apply BitVec.eq_of_toNat_eq
  have : (256 : Nat) ^ size.bytes = 2 ^ size.bits := by cases size <;> rfl
  rw [this]
  simp

/-- What `MemRead` answers where it answers a value. -/
theorem Hart.memRead_eq_next {v : BitVec size.bits} (e : h.memRead size ea = .next v) :
    h.Accessible .load size ea.toNat ∧ h.Holds size ea.toNat v := by
  unfold Hart.memRead at e
  obtain ⟨_, hc, hr⟩ := andThen_eq_next.mp e
  refine ⟨Hart.checkAccess_eq_next.mp hc, ?_⟩
  split at hr
  · next bs hbs =>
    rw [Hart.holds_iff_readBytes, hbs]
    have hl : bs.length = size.bytes := (Memory.readBytes_eq_some.mp hbs).1
    injection hr with hr
    subst hr
    congr 1
    apply List.ext_getElem
    · simp [hl]
    · intro j h1 h2
      obtain ⟨k, hk, ej⟩ := byteAddress_surj h.launch.endian (n := size.bytes) (j := j) (by omega)
      have hlv : ∀ w : BitVec size.bits, (leBytes size.bytes w.toNat).length = size.bytes := by simp
      obtain ⟨j', hj', e', ev⟩ := inOrder_getElem h.launch.endian _ _ k (hlv _) hk
      obtain ⟨j'', hj'', e'', ev'⟩ :=
        inOrder_getElem h.launch.endian (inOrder h.launch.endian bs) _ k (by simpa using hl) hk
      have e2 : j' = j := by omega
      have e3 : j'' = j := by omega
      subst e2; subst e3
      rw [ev, leBytes_eq_extract _ size.bytes k hk]
      simp only [inOrder_inOrder] at ev'
      have hx := extract_ofNat_leValue (inOrder h.launch.endian bs) (n := size.bytes) (by simpa using hl) k
        (by simpa [hl] using hk)
      rw [ev', ← hx]
      cases size <;> rfl
  · cases hr

/-- Whether an access lies outside the program text (rule R56). -/
theorem Launch.overlapsText_eq_false {l : Launch} {a n : Nat} :
    l.overlapsText a n = false ↔ ∀ t ∈ l.text, a + n ≤ t ∨ t + 4 ≤ a := by
  simp only [Launch.overlapsText, List.any_eq_false, Bool.and_eq_true, decide_eq_true_eq, not_and]
  constructor
  · intro hh t ht
    have := hh t ht
    omega
  · intro hh t ht
    have := hh t ht
    omega

/-- The memory after the bytes of a value were written. -/
def storedMem (h : Hart x) (size : AccessSize) (a : Nat) (v : BitVec size.bits) : Memory :=
  h.mem.writeBytes a (inOrder h.launch.endian (leBytes size.bytes v.toNat))

/-- `MemWrite` at an accessible address outside the text stores the bytes and changes nothing else (rules R42, R56). -/
theorem Hart.memWrite_eq_next {v : BitVec size.bits} :
    h.memWrite size ea v = .next h' ↔
      h.Accessible .store size ea.toNat ∧ h.OutsideText ea.toNat size.bytes ∧
        h' = { h with mem := storedMem h size ea.toNat v } := by
  unfold Hart.memWrite
  rw [andThen_eq_next]
  constructor
  · rintro ⟨_, hc, hr⟩
    split at hr
    · cases hr
    · next ho =>
      injection hr with hr
      exact ⟨Hart.checkAccess_eq_next.mp hc, Launch.overlapsText_eq_false.mp (by simpa using ho), hr.symm⟩
  · rintro ⟨ha, ho, rfl⟩
    refine ⟨(), Hart.checkAccess_eq_next.mpr ha, ?_⟩
    rw [if_neg (by rw [Launch.overlapsText_eq_false.mpr ho]; simp)]
    rfl

/-- The stored bytes hold the value. -/
theorem Hart.holds_storedMem (v : BitVec size.bits) (a : Nat) :
    Hart.Holds { h with mem := storedMem h size a v } size a v := by
  intro k hk
  obtain ⟨j, hj, e, ev⟩ := inOrder_getElem h.launch.endian (leBytes size.bytes v.toNat) _ k (by simp) hk
  show (storedMem h size a v).read (byteAddress h.launch.endian a size.bytes k) = _
  rw [byteAddress_add, e, storedMem, Memory.read_writeBytes_inside hj, ev, leBytes_eq_extract v size.bytes k hk]

/-- Outside the stored bytes the memory reads as before. -/
theorem storedMem_outside (v : BitVec size.bits) {a k : Nat} (hk : k < a ∨ a + size.bytes ≤ k) :
    (storedMem h size a v).read k = h.mem.read k :=
  Memory.read_writeBytes_outside (by simpa using hk)

/-- The end of a register instruction (rules R12, R27). -/
theorem Hart.finish_result (h : Hart x) (rd : Reg) (v : Word x) :
    ∃ h', h.finish rd v = .next h' ∧ h.RegisterResult h' rd v :=
  ⟨_, rfl, fun r => by simp [Hart.readReg_writeReg], by simp, fun a => by simp, by simp⟩

theorem Hart.finish_eq_next {rd : Reg} {v : Word x} (e : h.finish rd v = .next h') : h.RegisterResult h' rd v := by
  obtain ⟨h'', e', r⟩ := h.finish_result rd v
  rw [e] at e'
  injection e' with e'
  exact e' ▸ r

/-- A load of a value that is there, at an accessible address (rule R140). -/
theorem Hart.gpLoad_result {extend : BitVec size.bits → Word x} {rd : Reg} {off : Word x} {v : BitVec size.bits}
    (ha : h.Accessible .load size (h.gpAddress off).toNat) (hv : h.Holds size (h.gpAddress off).toNat v) :
    ∃ h', h.gpLoad size extend rd off = .next h' ∧ h.RegisterResult h' rd (extend v) := by
  unfold Hart.gpLoad
  rw [Hart.memRead_ok ha hv, andThen_next]
  exact h.finish_result rd (extend v)

theorem Hart.gpLoad_eq_next {extend : BitVec size.bits → Word x} {rd : Reg} {off : Word x}
    (e : h.gpLoad size extend rd off = .next h') :
    ∃ v, h.Accessible .load size (h.gpAddress off).toNat ∧ h.Holds size (h.gpAddress off).toNat v ∧
      h.RegisterResult h' rd (extend v) := by
  obtain ⟨v, hr, hf⟩ := andThen_eq_next.mp e
  obtain ⟨ha, hv⟩ := Hart.memRead_eq_next hr
  exact ⟨v, ha, hv, Hart.finish_eq_next hf⟩

/-- A store at an accessible address outside the text (rule R170). -/
theorem Hart.gpStore_result {rs2 : Reg} {off : Word x} (ha : h.Accessible .store size (h.gpAddress off).toNat)
    (ho : h.OutsideText (h.gpAddress off).toNat size.bytes) :
    ∃ h', h.gpStore size rs2 off = .next h' ∧
      h.StoreResult h' size (h.gpAddress off).toNat ((h.readReg rs2).setWidth size.bits) := by
  unfold Hart.gpStore
  rw [Hart.memWrite_eq_next.mpr ⟨ha, ho, rfl⟩, andThen_next]
  exact ⟨_, rfl, Hart.holds_storedMem _ _, fun a hk => storedMem_outside _ hk, fun r => rfl, rfl, rfl⟩

theorem Hart.gpStore_eq_next {rs2 : Reg} {off : Word x} (e : h.gpStore size rs2 off = .next h') :
    h.Accessible .store size (h.gpAddress off).toNat ∧ h.OutsideText (h.gpAddress off).toNat size.bytes ∧
      h' = Hart.advance
        { h with mem := storedMem h size (h.gpAddress off).toNat ((h.readReg rs2).setWidth size.bits) } := by
  obtain ⟨g, hw, hr⟩ := andThen_eq_next.mp e
  obtain ⟨ha, ho, rfl⟩ := Hart.memWrite_eq_next.mp hw
  injection hr with hr
  exact ⟨ha, ho, hr.symm⟩

/-- A branch whose target is aligned, or that is not taken (rule R120). -/
theorem Hart.branch_result {taken : Bool} {off : Word x}
    (ok : taken = true → (h.pc + off).toNat % h.launch.ialign.bytes = 0) :
    h.branch taken off = .next (h.setPc (if taken then h.pc + off else h.pc + 4)) := by
  unfold Hart.branch
  cases taken
  · rfl
  · rw [if_pos rfl, if_pos (ok rfl), if_pos rfl]

theorem Hart.branch_eq_next {taken : Bool} {off : Word x} (e : h.branch taken off = .next h') :
    h' = h.setPc (if taken then h.pc + off else h.pc + 4) ∧
      (taken = true → (h.pc + off).toNat % h.launch.ialign.bytes = 0) := by
  unfold Hart.branch at e
  cases taken
  · injection e with e
    exact ⟨e.symm, by simp⟩
  · simp only [if_true] at e
    split at e
    · next ha =>
      injection e with e
      exact ⟨by simpa using e.symm, fun _ => ha⟩
    · cases e

end Sys2Proof.Machine
end

