-- ==== Sys2Proof/Laws/Decode.lean ====
section
/-! SUPPORT. What each format's encoder and field readers say of each other: the fields of an encoded word, and the word
that its own fields encode to. Every bit of a word is in exactly one field. -/

namespace Sys2Proof

/-! ## Register and position fields, from the bits -/

theorem rdOf_eq {insn : BitVec 32} {r : Reg} (h : insn.extractLsb 11 7 = regBits r) : rdOf insn = r := by
  unfold rdOf; rw [h]; rfl

theorem rs1Of_eq {insn : BitVec 32} {r : Reg} (h : insn.extractLsb 19 15 = regBits r) : rs1Of insn = r := by
  unfold rs1Of; rw [h]; rfl

theorem rs2Of_eq {insn : BitVec 32} {r : Reg} (h : insn.extractLsb 24 20 = regBits r) : rs2Of insn = r := by
  unfold rs2Of; rw [h]; rfl

theorem msbBF_eq {insn : BitVec 32} {p : Fin 64} (h : insn.extractLsb 31 26 = posBits p) : msbBF insn = p := by
  unfold msbBF; rw [h]; rfl

theorem lsbBF_eq {insn : BitVec 32} {p : Fin 64} (h : insn.extractLsb 25 20 = posBits p) : lsbBF insn = p := by
  unfold lsbBF; rw [h]; rfl

theorem cimmBB_eq {insn : BitVec 32} {p : Fin 64} (h5 : insn.extractLsb 7 7 = (posBits p).extractLsb 5 5)
    (h4 : insn.extractLsb 24 20 = (posBits p).extractLsb 4 0) : cimmBB insn = p := by
  have e : ((posBits p).extractLsb 5 5 ++ (posBits p).extractLsb 4 0 : BitVec 6) = posBits p := by
    apply BitVec.eq_of_getLsbD_eq
    intro j hj
    interval_cases j <;> simp only [BitVec.getLsbD_append, BitVec.getLsbD_extractLsb] <;> rfl
  unfold cimmBB
  rw [h5, h4, e]
  rfl

/-! ## The fields of an encoded word -/

/-- Format BB (rule R74). -/
theorem encBB_fields (b : BitVec 1) (rs1 : Reg) (cimm : Fin 64) (imm : BitVec 10) :
    (encBB b rs1 cimm imm).extractLsb 6 0 = 0b1011011#7 ∧
    (encBB b rs1 cimm imm).extractLsb 14 12 = 0b111#3 ∧
    (encBB b rs1 cimm imm).extractLsb 30 30 = b ∧
    (encBB b rs1 cimm imm).extractLsb 7 7 = (posBits cimm).extractLsb 5 5 ∧
    (encBB b rs1 cimm imm).extractLsb 24 20 = (posBits cimm).extractLsb 4 0 ∧
    (encBB b rs1 cimm imm).extractLsb 19 15 = regBits rs1 ∧
    immBranch (encBB b rs1 cimm imm) = imm := by
  refine ⟨?_, ?_, ?_, ?_, ?_, ?_, ?_⟩ <;>
    (apply BitVec.eq_of_getLsbD_eq; intro j hj; interval_cases j) <;>
    simp only [encBB, immBranch, BitVec.getLsbD_append, BitVec.getLsbD_extractLsb] <;> rfl

/-- Format BC (rule R75). -/
theorem encBC_fields (f3 : BitVec 3) (rs1 : Reg) (cimm : BitVec 7) (imm : BitVec 10) :
    (encBC f3 rs1 cimm imm).extractLsb 6 0 = 0b1011011#7 ∧
    (encBC f3 rs1 cimm imm).extractLsb 14 12 = f3 ∧
    (encBC f3 rs1 cimm imm).extractLsb 19 15 = regBits rs1 ∧
    cimmBC (encBC f3 rs1 cimm imm) = cimm ∧
    immBranch (encBC f3 rs1 cimm imm) = imm := by
  refine ⟨?_, ?_, ?_, ?_, ?_⟩ <;>
    (apply BitVec.eq_of_getLsbD_eq; intro j hj; interval_cases j) <;>
    simp only [encBC, cimmBC, immBranch, BitVec.getLsbD_append, BitVec.getLsbD_extractLsb] <;> rfl

/-- Format BF (rule R77). -/
theorem encBF_fields (f3 : BitVec 3) (rd rs1 : Reg) (msb lsb : Fin 64) :
    (encBF f3 rd rs1 msb lsb).extractLsb 6 0 = 0b1011011#7 ∧
    (encBF f3 rd rs1 msb lsb).extractLsb 14 12 = f3 ∧
    (encBF f3 rd rs1 msb lsb).extractLsb 11 7 = regBits rd ∧
    (encBF f3 rd rs1 msb lsb).extractLsb 19 15 = regBits rs1 ∧
    (encBF f3 rd rs1 msb lsb).extractLsb 31 26 = posBits msb ∧
    (encBF f3 rd rs1 msb lsb).extractLsb 25 20 = posBits lsb := by
  refine ⟨?_, ?_, ?_, ?_, ?_, ?_⟩ <;>
    (apply BitVec.eq_of_getLsbD_eq; intro j hj; interval_cases j) <;>
    simp only [encBF, BitVec.getLsbD_append, BitVec.getLsbD_extractLsb] <;> rfl

/-- Format R (rule R88). -/
theorem encR_fields (f7 : BitVec 7) (rd rs1 rs2 : Reg) :
    (encR f7 rd rs1 rs2).extractLsb 6 0 = 0b1011011#7 ∧
    (encR f7 rd rs1 rs2).extractLsb 14 12 = 0b000#3 ∧
    (encR f7 rd rs1 rs2).extractLsb 31 25 = f7 ∧
    (encR f7 rd rs1 rs2).extractLsb 11 7 = regBits rd ∧
    (encR f7 rd rs1 rs2).extractLsb 19 15 = regBits rs1 ∧
    (encR f7 rd rs1 rs2).extractLsb 24 20 = regBits rs2 := by
  refine ⟨?_, ?_, ?_, ?_, ?_, ?_⟩ <;>
    (apply BitVec.eq_of_getLsbD_eq; intro j hj; interval_cases j) <;>
    simp only [encR, BitVec.getLsbD_append, BitVec.getLsbD_extractLsb] <;> rfl

/-- Format GB (rule R78). -/
theorem encGB_fields (f2 : BitVec 2) (rd : Reg) (imm : BitVec 18) :
    (encGB f2 rd imm).extractLsb 6 0 = 0b0001011#7 ∧
    (encGB f2 rd imm).extractLsb 13 12 = f2 ∧
    (encGB f2 rd imm).extractLsb 11 7 = regBits rd ∧
    immGB (encGB f2 rd imm) = imm := by
  refine ⟨?_, ?_, ?_, ?_⟩ <;>
    (apply BitVec.eq_of_getLsbD_eq; intro j hj; interval_cases j) <;>
    simp only [encGB, immGB, BitVec.getLsbD_append, BitVec.getLsbD_extractLsb] <;> rfl

/-- Format GSB (rule R79). -/
theorem encGSB_fields (f2 : BitVec 2) (rs2 : Reg) (imm : BitVec 18) :
    (encGSB f2 rs2 imm).extractLsb 6 0 = 0b0001011#7 ∧
    (encGSB f2 rs2 imm).extractLsb 13 12 = f2 ∧
    (encGSB f2 rs2 imm).extractLsb 24 20 = regBits rs2 ∧
    immGSB (encGSB f2 rs2 imm) = imm := by
  refine ⟨?_, ?_, ?_, ?_⟩ <;>
    (apply BitVec.eq_of_getLsbD_eq; intro j hj; interval_cases j) <;>
    simp only [encGSB, immGSB, BitVec.getLsbD_append, BitVec.getLsbD_extractLsb] <;> rfl

/-- Format GH (rule R80). -/
theorem encGH_fields (f3 : BitVec 3) (rd : Reg) (imm : BitVec 17) :
    (encGH f3 rd imm).extractLsb 6 0 = 0b0101011#7 ∧
    (encGH f3 rd imm).extractLsb 14 12 = f3 ∧
    (encGH f3 rd imm).extractLsb 11 7 = regBits rd ∧
    immGH (encGH f3 rd imm) = imm := by
  refine ⟨?_, ?_, ?_, ?_⟩ <;>
    (apply BitVec.eq_of_getLsbD_eq; intro j hj; interval_cases j) <;>
    simp only [encGH, immGH, BitVec.getLsbD_append, BitVec.getLsbD_extractLsb] <;> rfl

/-- Format GW (rule R81). -/
theorem encGW_fields (f3 : BitVec 3) (rd : Reg) (imm : BitVec 17) :
    (encGW f3 rd imm).extractLsb 6 0 = 0b0101011#7 ∧
    (encGW f3 rd imm).extractLsb 14 12 = f3 ∧
    (encGW f3 rd imm).extractLsb 11 7 = regBits rd ∧
    immGW (encGW f3 rd imm) = imm := by
  refine ⟨?_, ?_, ?_, ?_⟩ <;>
    (apply BitVec.eq_of_getLsbD_eq; intro j hj; interval_cases j) <;>
    simp only [encGW, immGW, BitVec.getLsbD_append, BitVec.getLsbD_extractLsb] <;> rfl

/-- Format GD (rule R82). -/
theorem encGD_fields (f3 : BitVec 3) (rd : Reg) (imm : BitVec 17) :
    (encGD f3 rd imm).extractLsb 6 0 = 0b0101011#7 ∧
    (encGD f3 rd imm).extractLsb 14 12 = f3 ∧
    (encGD f3 rd imm).extractLsb 11 7 = regBits rd ∧
    immGD (encGD f3 rd imm) = imm := by
  refine ⟨?_, ?_, ?_, ?_⟩ <;>
    (apply BitVec.eq_of_getLsbD_eq; intro j hj; interval_cases j) <;>
    simp only [encGD, immGD, BitVec.getLsbD_append, BitVec.getLsbD_extractLsb] <;> rfl

/-- Format GSD (rule R83). -/
theorem encGSD_fields (f3 : BitVec 3) (rs2 : Reg) (imm : BitVec 17) :
    (encGSD f3 rs2 imm).extractLsb 6 0 = 0b0101011#7 ∧
    (encGSD f3 rs2 imm).extractLsb 14 12 = f3 ∧
    (encGSD f3 rs2 imm).extractLsb 24 20 = regBits rs2 ∧
    immGSD (encGSD f3 rs2 imm) = imm := by
  refine ⟨?_, ?_, ?_, ?_⟩ <;>
    (apply BitVec.eq_of_getLsbD_eq; intro j hj; interval_cases j) <;>
    simp only [encGSD, immGSD, BitVec.getLsbD_append, BitVec.getLsbD_extractLsb] <;> rfl

/-- Format GSH (rule R84). -/
theorem encGSH_fields (f3 : BitVec 3) (rs2 : Reg) (imm : BitVec 17) :
    (encGSH f3 rs2 imm).extractLsb 6 0 = 0b0101011#7 ∧
    (encGSH f3 rs2 imm).extractLsb 14 12 = f3 ∧
    (encGSH f3 rs2 imm).extractLsb 24 20 = regBits rs2 ∧
    immGSH (encGSH f3 rs2 imm) = imm := by
  refine ⟨?_, ?_, ?_, ?_⟩ <;>
    (apply BitVec.eq_of_getLsbD_eq; intro j hj; interval_cases j) <;>
    simp only [encGSH, immGSH, BitVec.getLsbD_append, BitVec.getLsbD_extractLsb] <;> rfl

/-- Format GSW (rule R84). -/
theorem encGSW_fields (f3 : BitVec 3) (rs2 : Reg) (imm : BitVec 17) :
    (encGSW f3 rs2 imm).extractLsb 6 0 = 0b0101011#7 ∧
    (encGSW f3 rs2 imm).extractLsb 14 12 = f3 ∧
    (encGSW f3 rs2 imm).extractLsb 24 20 = regBits rs2 ∧
    immGSW (encGSW f3 rs2 imm) = imm := by
  refine ⟨?_, ?_, ?_, ?_⟩ <;>
    (apply BitVec.eq_of_getLsbD_eq; intro j hj; interval_cases j) <;>
    simp only [encGSW, immGSW, BitVec.getLsbD_append, BitVec.getLsbD_extractLsb] <;> rfl

/-! ## The word that its own fields encode to -/

theorem bits_rdOf (insn : BitVec 32) : regBits (rdOf insn) = insn.extractLsb 11 7 := rfl

theorem bits_rs1Of (insn : BitVec 32) : regBits (rs1Of insn) = insn.extractLsb 19 15 := rfl

theorem bits_rs2Of (insn : BitVec 32) : regBits (rs2Of insn) = insn.extractLsb 24 20 := rfl

theorem bits_msbBF (insn : BitVec 32) : posBits (msbBF insn) = insn.extractLsb 31 26 := rfl

theorem bits_lsbBF (insn : BitVec 32) : posBits (lsbBF insn) = insn.extractLsb 25 20 := rfl

theorem bits_cimmBB (insn : BitVec 32) : posBits (cimmBB insn) = insn.extractLsb 7 7 ++ insn.extractLsb 24 20 := rfl

/-- Format BB (rule R74). -/
theorem encBB_of_fields (insn : BitVec 32) (h : insn.extractLsb 6 0 = 0b1011011#7)
    (h3 : insn.extractLsb 14 12 = 0b111#3) :
    encBB (insn.extractLsb 30 30) (rs1Of insn) (cimmBB insn) (immBranch insn) = insn := by
  unfold encBB immBranch
  rw [bits_rs1Of, bits_cimmBB, ← h, ← h3]
  apply BitVec.eq_of_getLsbD_eq; intro j hj
  interval_cases j <;> simp only [BitVec.getLsbD_append, BitVec.getLsbD_extractLsb] <;> rfl

/-- Format BC (rule R75). -/
theorem encBC_of_fields (insn : BitVec 32) (h : insn.extractLsb 6 0 = 0b1011011#7) :
    encBC (insn.extractLsb 14 12) (rs1Of insn) (cimmBC insn) (immBranch insn) = insn := by
  unfold encBC cimmBC immBranch
  rw [bits_rs1Of, ← h]
  apply BitVec.eq_of_getLsbD_eq; intro j hj
  interval_cases j <;> simp only [BitVec.getLsbD_append, BitVec.getLsbD_extractLsb] <;> rfl

/-- Format BF (rule R77). -/
theorem encBF_of_fields (insn : BitVec 32) (h : insn.extractLsb 6 0 = 0b1011011#7) :
    encBF (insn.extractLsb 14 12) (rdOf insn) (rs1Of insn) (msbBF insn) (lsbBF insn) = insn := by
  unfold encBF
  rw [bits_rdOf, bits_rs1Of, bits_msbBF, bits_lsbBF, ← h]
  apply BitVec.eq_of_getLsbD_eq; intro j hj
  interval_cases j <;> simp only [BitVec.getLsbD_append, BitVec.getLsbD_extractLsb] <;> rfl

/-- Format R (rule R88). -/
theorem encR_of_fields (insn : BitVec 32) (h : insn.extractLsb 6 0 = 0b1011011#7)
    (h3 : insn.extractLsb 14 12 = 0b000#3) :
    encR (insn.extractLsb 31 25) (rdOf insn) (rs1Of insn) (rs2Of insn) = insn := by
  unfold encR
  rw [bits_rdOf, bits_rs1Of, bits_rs2Of, ← h, ← h3]
  apply BitVec.eq_of_getLsbD_eq; intro j hj
  interval_cases j <;> simp only [BitVec.getLsbD_append, BitVec.getLsbD_extractLsb] <;> rfl

/-- Format GB (rule R78). -/
theorem encGB_of_fields (insn : BitVec 32) (h : insn.extractLsb 6 0 = 0b0001011#7) :
    encGB (insn.extractLsb 13 12) (rdOf insn) (immGB insn) = insn := by
  unfold encGB immGB
  rw [bits_rdOf, ← h]
  apply BitVec.eq_of_getLsbD_eq; intro j hj
  interval_cases j <;> simp only [BitVec.getLsbD_append, BitVec.getLsbD_extractLsb] <;> rfl

/-- Format GSB (rule R79). -/
theorem encGSB_of_fields (insn : BitVec 32) (h : insn.extractLsb 6 0 = 0b0001011#7) :
    encGSB (insn.extractLsb 13 12) (rs2Of insn) (immGSB insn) = insn := by
  unfold encGSB immGSB
  rw [bits_rs2Of, ← h]
  apply BitVec.eq_of_getLsbD_eq; intro j hj
  interval_cases j <;> simp only [BitVec.getLsbD_append, BitVec.getLsbD_extractLsb] <;> rfl

/-- Format GH (rule R80). -/
theorem encGH_of_fields (insn : BitVec 32) (h : insn.extractLsb 6 0 = 0b0101011#7) :
    encGH (insn.extractLsb 14 12) (rdOf insn) (immGH insn) = insn := by
  unfold encGH immGH
  rw [bits_rdOf, ← h]
  apply BitVec.eq_of_getLsbD_eq; intro j hj
  interval_cases j <;> simp only [BitVec.getLsbD_append, BitVec.getLsbD_extractLsb] <;> rfl

/-- Format GW (rule R81). -/
theorem encGW_of_fields (insn : BitVec 32) (h : insn.extractLsb 6 0 = 0b0101011#7) :
    encGW (insn.extractLsb 14 12) (rdOf insn) (immGW insn) = insn := by
  unfold encGW immGW
  rw [bits_rdOf, ← h]
  apply BitVec.eq_of_getLsbD_eq; intro j hj
  interval_cases j <;> simp only [BitVec.getLsbD_append, BitVec.getLsbD_extractLsb] <;> rfl

/-- Format GD (rule R82). -/
theorem encGD_of_fields (insn : BitVec 32) (h : insn.extractLsb 6 0 = 0b0101011#7) :
    encGD (insn.extractLsb 14 12) (rdOf insn) (immGD insn) = insn := by
  unfold encGD immGD
  rw [bits_rdOf, ← h]
  apply BitVec.eq_of_getLsbD_eq; intro j hj
  interval_cases j <;> simp only [BitVec.getLsbD_append, BitVec.getLsbD_extractLsb] <;> rfl

/-- Format GSD (rule R83). -/
theorem encGSD_of_fields (insn : BitVec 32) (h : insn.extractLsb 6 0 = 0b0101011#7) :
    encGSD (insn.extractLsb 14 12) (rs2Of insn) (immGSD insn) = insn := by
  unfold encGSD immGSD
  rw [bits_rs2Of, ← h]
  apply BitVec.eq_of_getLsbD_eq; intro j hj
  interval_cases j <;> simp only [BitVec.getLsbD_append, BitVec.getLsbD_extractLsb] <;> rfl

/-- Format GSH (rule R84). -/
theorem encGSH_of_fields (insn : BitVec 32) (h : insn.extractLsb 6 0 = 0b0101011#7) :
    encGSH (insn.extractLsb 14 12) (rs2Of insn) (immGSH insn) = insn := by
  unfold encGSH immGSH
  rw [bits_rs2Of, ← h]
  apply BitVec.eq_of_getLsbD_eq; intro j hj
  interval_cases j <;> simp only [BitVec.getLsbD_append, BitVec.getLsbD_extractLsb] <;> rfl

/-- Format GSW (rule R84). -/
theorem encGSW_of_fields (insn : BitVec 32) (h : insn.extractLsb 6 0 = 0b0101011#7) :
    encGSW (insn.extractLsb 14 12) (rs2Of insn) (immGSW insn) = insn := by
  unfold encGSW immGSW
  rw [bits_rs2Of, ← h]
  apply BitVec.eq_of_getLsbD_eq; intro j hj
  interval_cases j <;> simp only [BitVec.getLsbD_append, BitVec.getLsbD_extractLsb] <;> rfl

end Sys2Proof
end

