-- ==== Sys2Proof/Laws/Exec.lean ====
section
/-! SUPPORT. What one instruction can do, said once: the three shapes of a next state (a register result, a jump, a
store), and the fact that an instruction stays at its width. Later proofs cite these and unfold no meaning. -/

namespace Sys2Proof.Machine

variable {x : XLen} {h : Hart x}

/-- A meaning run on the hart answers a state of the same width. -/
theorem State.onHart_next_iff {f : Hart x → Result (Hart x)} {s' : State} :
    State.onHart ⟨x, h⟩ f = .next s' ↔ ∃ h' : Hart x, s' = ⟨x, h'⟩ ∧ f h = .next h' := by
  rw [State.onHart_mk, andThen_eq_next]
  constructor
  · rintro ⟨a, ha, hk⟩
    cases hk
    exact ⟨a, rfl, ha⟩
  · rintro ⟨h', rfl, e⟩
    exact ⟨h', e, rfl⟩

/-! ## The offsets of the GP-relative forms, as integers (rules R44, R89) -/

theorem sext_eq_ofInt {n : Nat} (v : BitVec n) : sext x v = BitVec.ofInt x.bits v.toInt := rfl

theorem zext_eq_ofInt {n : Nat} (v : BitVec n) : zext x v = BitVec.ofInt x.bits v.toNat := by
  apply BitVec.eq_of_toNat_eq
  simp [zext]

theorem append_zeros_toInt {n k : Nat} (v : BitVec (n + 1)) : (v ++ 0#k : BitVec (n + 1 + k)).toInt = 2 ^ k * v.toInt := by
  have hm : (v ++ 0#k).msb = v.msb := by simp [BitVec.msb_append]
  rw [BitVec.toInt_eq_msb_cond, BitVec.toInt_eq_msb_cond, hm]
  have e : (v ++ 0#k).toNat = 2 ^ k * v.toNat := by simp [BitVec.toNat_append, Nat.shiftLeft_eq, Nat.mul_comm]
  rw [e]
  split
  · push_cast; rw [Nat.add_comm (n + 1) k, pow_add]; ring
  · push_cast; rfl

theorem immH_toInt (f : BitVec 17) : (immH f).toInt = 2 * f.toInt := append_zeros_toInt (n := 16) (k := 1) f
theorem immW_toInt (f : BitVec 17) : (immW f).toInt = 4 * f.toInt := append_zeros_toInt (n := 16) (k := 2) f
theorem immD_toInt (f : BitVec 17) : (immD f).toInt = 8 * f.toInt := append_zeros_toInt (n := 16) (k := 3) f

theorem immH_toNat (f : BitVec 17) : (immH f).toNat = 2 * f.toNat := by
  rw [immH, BitVec.toNat_append]; simp [Nat.shiftLeft_eq, Nat.mul_comm]
theorem immW_toNat (f : BitVec 17) : (immW f).toNat = 4 * f.toNat := by
  rw [immW, BitVec.toNat_append]; simp [Nat.shiftLeft_eq, Nat.mul_comm]

theorem gpAddress_ofInt (i : Int) : h.gpAddress (BitVec.ofInt x.bits i) = h.dataAddress i := rfl

/-! ## The meanings, on a hart -/

/-- The meaning of each instruction as a function of the hart; `exec_eq` says that `exec` is this and nothing else. -/
def hartMeaning (i : Instr) (h : Hart x) : Result (Hart x) :=
  match i with
  | .lbgp rd imm => h.gpLoad .byte (sext x) rd (sext x imm)
  | .addigp rd imm => h.finish rd (h.readReg gp + sext x imm)
  | .lbugp rd imm => h.gpLoad .byte (zext x) rd (unsignedOffset x h.launch.uloadOffsetExt imm)
  | .sbgp rs2 imm => h.gpStore .byte rs2 (sext x imm)
  | .shgp rs2 imm => h.gpStore .half rs2 (sext x (immH imm))
  | .lhgp rd imm => h.gpLoad .half (sext x) rd (sext x (immH imm))
  | .lwgp rd imm => h.gpLoad .word (sext x) rd (sext x (immW imm))
  | .ldgp rd imm => h.onlyRv64 (.ldgp rd imm) (h.gpLoad .double (zext x) rd (sext x (immD imm)))
  | .swgp rs2 imm => h.gpStore .word rs2 (sext x (immW imm))
  | .lhugp rd imm => h.gpLoad .half (zext x) rd (unsignedOffset x h.launch.uloadOffsetExt (immH imm))
  | .lwugp rd imm =>
    h.onlyLwugp (.lwugp rd imm)
      (h.gpLoad .word (zext x) rd (unsignedOffset x h.launch.uloadOffsetExt (immW imm)))
  | .sdgp rs2 imm => h.onlyRv64 (.sdgp rs2 imm) (h.gpStore .double rs2 (sext x (immD imm)))
  | .bbc rs1 c imm => h.onlyPositions (.bbc rs1 c imm) (h.branch (bitIsClear (h.readReg rs1) c) (branchOffset x imm))
  | .bbs rs1 c imm => h.onlyPositions (.bbs rs1 c imm) (h.branch (bitIsSet (h.readReg rs1) c) (branchOffset x imm))
  | .beqc rs1 c imm => h.branch (equalsConstant (h.readReg rs1) c) (branchOffset x imm)
  | .bnec rs1 c imm => h.branch (differsFromConstant (h.readReg rs1) c) (branchOffset x imm)
  | .bfoz rd rs1 m l => h.onlyPositions (.bfoz rd rs1 m l) (h.finish rd (bitField (zext x) (h.readReg rs1) m.val l.val))
  | .bfos rd rs1 m l => h.onlyPositions (.bfos rd rs1 m l) (h.finish rd (bitField (sext x) (h.readReg rs1) m.val l.val))
  | .leaH rd rs1 rs2 => h.lea rd rs1 (h.readReg rs2) 1
  | .leaW rd rs1 rs2 => h.lea rd rs1 (h.readReg rs2) 2
  | .leaD rd rs1 rs2 => h.lea rd rs1 (h.readReg rs2) 3
  | .leaBZe rd rs1 rs2 => h.onlyRv64 (.leaBZe rd rs1 rs2) (h.lea rd rs1 (zeroExtendedIndex (h.readReg rs2)) 0)
  | .leaHZe rd rs1 rs2 => h.onlyRv64 (.leaHZe rd rs1 rs2) (h.lea rd rs1 (zeroExtendedIndex (h.readReg rs2)) 1)
  | .leaWZe rd rs1 rs2 => h.onlyRv64 (.leaWZe rd rs1 rs2) (h.lea rd rs1 (zeroExtendedIndex (h.readReg rs2)) 2)
  | .leaDZe rd rs1 rs2 => h.onlyRv64 (.leaDZe rd rs1 rs2) (h.lea rd rs1 (zeroExtendedIndex (h.readReg rs2)) 3)

theorem exec_eq (i : Instr) (h : Hart x) : exec i ⟨x, h⟩ = State.onHart ⟨x, h⟩ (hartMeaning i) := by
  cases i <;> rfl

theorem exec_eq_next {i : Instr} {h' : Hart x} : exec i ⟨x, h⟩ = .next ⟨x, h'⟩ ↔ hartMeaning i h = .next h' := by
  rw [exec_eq, State.onHart_eq_next]

theorem exec_eq_fault {i : Instr} {f : Fault} : exec i ⟨x, h⟩ = .fault f ↔ hartMeaning i h = .fault f := by
  rw [exec_eq, State.onHart_eq_fault]

theorem exec_eq_refused {i : Instr} {r : Refusal} : exec i ⟨x, h⟩ = .refused r ↔ hartMeaning i h = .refused r := by
  rw [exec_eq, State.onHart_mk]
  cases hartMeaning i h <;> simp

/-- From a result of the meaning to the same result of `exec`. -/
theorem exec_of_result {i : Instr} {P : Hart x → Prop} (e : ∃ h', hartMeaning i h = .next h' ∧ P h') :
    ∃ h', exec i ⟨x, h⟩ = .next ⟨x, h'⟩ ∧ P h' := by
  obtain ⟨h', e, p⟩ := e
  exact ⟨h', exec_eq_next.mpr e, p⟩

/-! ## The operands of the tests and of the accesses -/

theorem zext_constant_toNat (c : BitVec 7) : (zext x c).toNat = c.toNat := by
  have := c.isLt
  unfold zext
  rw [BitVec.toNat_setWidth]
  apply Nat.mod_eq_of_lt
  cases x <;> simp only [XLen.bits] <;> omega

/-- The test of BEQC as an equality of numbers (rule R124). -/
theorem equalsConstant_eq (v : Word x) (c : BitVec 7) : equalsConstant v c = decide (v.toNat = c.toNat) := by
  unfold equalsConstant
  rw [← zext_constant_toNat (x := x) c, Bool.eq_iff_iff]
  simp [BitVec.toNat_inj]

/-- The test of BNEC (rule R125). -/
theorem differsFromConstant_eq (v : Word x) (c : BitVec 7) : differsFromConstant v c = !equalsConstant v c := rfl

theorem unsignedOffset_eq {n : Nat} (e : OffsetExt) (v : BitVec n) :
    unsignedOffset x e v = BitVec.ofInt x.bits (match e with | .ze => (v.toNat : Int) | .se => v.toInt) := by
  cases e
  · exact zext_eq_ofInt v
  · rfl

/-- Every memory instruction that exists is the load or store shape at the offset of the table (rules R40, R44). -/
theorem hartMeaning_access {i : Instr} {kind : AccessKind} {size : AccessSize} {off : Int}
    (ha : i.access h.launch.uloadOffsetExt = some (kind, size, off)) (hw : i.WellFormed x h.launch.lwugpOnRv32) :
    (kind = .load ∧ ∃ rd, i.dest = some rd ∧
      (hartMeaning i h = h.gpLoad size (sext x) rd (BitVec.ofInt x.bits off) ∨
       hartMeaning i h = h.gpLoad size (zext x) rd (BitVec.ofInt x.bits off))) ∨
    (kind = .store ∧ ∃ rs2, i.sources = [3, rs2] ∧
      hartMeaning i h = h.gpStore size rs2 (BitVec.ofInt x.bits off)) := by
  cases i <;> simp only [Instr.access, Option.some.injEq, Prod.mk.injEq, reduceCtorEq] at ha <;>
    obtain ⟨rfl, rfl, rfl⟩ := ha
  case lbgp => exact .inl ⟨rfl, _, rfl, .inl rfl⟩
  case lbugp => exact .inl ⟨rfl, _, rfl, .inr (congrArg (h.gpLoad .byte (zext x) _) (unsignedOffset_eq _ _))⟩
  case sbgp => exact .inr ⟨rfl, _, rfl, rfl⟩
  case shgp => exact .inr ⟨rfl, _, rfl, by rw [← immH_toInt]; rfl⟩
  case lhgp => exact .inl ⟨rfl, _, rfl, .inl (by rw [← immH_toInt]; rfl)⟩
  case lwgp => exact .inl ⟨rfl, _, rfl, .inl (by rw [← immW_toInt]; rfl)⟩
  case ldgp =>
    refine .inl ⟨rfl, _, rfl, .inr ?_⟩
    rw [← immD_toInt]
    exact Hart.onlyRv64_ok (hw.1 rfl)
  case swgp => exact .inr ⟨rfl, _, rfl, by rw [← immW_toInt]; rfl⟩
  case lhugp =>
    refine .inl ⟨rfl, _, rfl, .inr ?_⟩
    simp only [hartMeaning]
    rw [unsignedOffset_eq, immH_toNat, immH_toInt]
    push_cast
    rfl
  case lwugp =>
    refine .inl ⟨rfl, _, rfl, .inr ?_⟩
    refine (Hart.onlyLwugp_ok (hw.2.2 rfl)).trans ?_
    rw [unsignedOffset_eq, immW_toNat, immW_toInt]
    push_cast
    rfl
  case sdgp =>
    refine .inr ⟨rfl, _, rfl, ?_⟩
    rw [← immD_toInt]
    exact Hart.onlyRv64_ok (hw.1 rfl)

/-! ## The three shapes of a next state -/

/-- The shape of a register instruction or a load: a write of one register, and the pc past the instruction. -/
def WritesRegister (h : Hart x) (i : Instr) (h' : Hart x) : Prop :=
  ∃ (rd : Reg) (v : Word x), i.dest = some rd ∧ i.branchField = none ∧ i.accessKind ≠ some .store ∧
    h' = (h.writeReg rd v).advance

/-- The shape of a branch: a new pc, either past the instruction or the aligned target. -/
def Jumps (h : Hart x) (i : Instr) (h' : Hart x) : Prop :=
  ∃ (imm : BitVec 10) (t : Word x), i.branchField = some imm ∧ i.dest = none ∧ i.accessKind = none ∧ h' = h.setPc t ∧
    (t = h.pc + 4 ∨ (t = h.pc + branchOffset x imm ∧ t.toNat % h.launch.ialign.bytes = 0))

/-- The shape of a store: the bytes of one value at the address of the access, and the pc past the instruction. -/
def Stores (h : Hart x) (i : Instr) (h' : Hart x) : Prop :=
  ∃ (size : AccessSize) (off : Int) (v : BitVec size.bits),
    (∀ e, i.access e = some (.store, size, off)) ∧ i.dest = none ∧ i.branchField = none ∧
    h.Accessible .store size (h.dataAddress off).toNat ∧ h.OutsideText (h.dataAddress off).toNat size.bytes ∧
    h' = Hart.advance { h with mem := storedMem h size (h.dataAddress off).toNat v }

/-! ## What one instruction can do -/

theorem Hart.finish_shape {rd : Reg} {v : Word x} {h' : Hart x} (e : h.finish rd v = .next h') :
    h' = (h.writeReg rd v).advance := by
  injection e with e
  exact e.symm

theorem Hart.gpLoad_shape {size : AccessSize} {extend : BitVec size.bits → Word x} {rd : Reg} {off : Word x}
    {h' : Hart x} (e : h.gpLoad size extend rd off = .next h') : ∃ v, h' = (h.writeReg rd v).advance := by
  obtain ⟨v, -, hf⟩ := andThen_eq_next.mp e
  exact ⟨_, Hart.finish_shape hf⟩

/-- Every next state of an instruction has one of the three shapes. -/
theorem exec_shape {i : Instr} {s' : State} (e : exec i ⟨x, h⟩ = .next s') :
    ∃ h' : Hart x, s' = ⟨x, h'⟩ ∧ (WritesRegister h i h' ∨ Jumps h i h' ∨ Stores h i h') := by
  rw [exec_eq] at e
  obtain ⟨h', rfl, m⟩ := State.onHart_next_iff.mp e
  clear e
  refine ⟨h', rfl, ?_⟩
  have reg : ∀ (rd : Reg), i.dest = some rd → i.branchField = none → i.accessKind ≠ some .store →
      (∃ v, h' = (h.writeReg rd v).advance) → WritesRegister h i h' ∨ Jumps h i h' ∨ Stores h i h' :=
    fun rd hd hb ha ⟨v, hv⟩ => .inl ⟨rd, v, hd, hb, ha, hv⟩
  have jmp : ∀ {b : Bool} (imm : BitVec 10), i.branchField = some imm → i.dest = none → i.accessKind = none →
      h.branch b (branchOffset x imm) = .next h' → WritesRegister h i h' ∨ Jumps h i h' ∨ Stores h i h' := by
    intro b imm hb hd ha hv
    obtain ⟨hs, hal⟩ := Hart.branch_eq_next hv
    refine .inr (.inl ⟨imm, _, hb, hd, ha, hs, ?_⟩)
    cases b
    · exact .inl rfl
    · exact .inr ⟨rfl, hal rfl⟩
  have sto : ∀ (size : AccessSize) (off : Int) (rs2 : Reg), (∀ e, i.access e = some (.store, size, off)) →
      i.dest = none → i.branchField = none → h.gpStore size rs2 (BitVec.ofInt x.bits off) = .next h' →
      WritesRegister h i h' ∨ Jumps h i h' ∨ Stores h i h' := by
    intro size off rs2 ha hd hb e
    obtain ⟨hac, ho, hs⟩ := Hart.gpStore_eq_next e
    exact .inr (.inr ⟨size, off, _, ha, hd, hb, hac, ho, hs⟩)
  cases i with
  | lbgp rd imm => exact reg rd rfl rfl (by simp [Instr.accessKind, Instr.access]) (Hart.gpLoad_shape m)
  | addigp rd imm => exact reg rd rfl rfl (by simp [Instr.accessKind, Instr.access]) ⟨_, Hart.finish_shape m⟩
  | lbugp rd imm => exact reg rd rfl rfl (by simp [Instr.accessKind, Instr.access]) (Hart.gpLoad_shape m)
  | sbgp rs2 imm => exact sto .byte _ rs2 (fun _ => rfl) rfl rfl m
  | shgp rs2 imm => exact sto .half _ rs2 (fun _ => rfl) rfl rfl (by rwa [← immH_toInt])
  | lhgp rd imm => exact reg rd rfl rfl (by simp [Instr.accessKind, Instr.access]) (Hart.gpLoad_shape m)
  | lwgp rd imm => exact reg rd rfl rfl (by simp [Instr.accessKind, Instr.access]) (Hart.gpLoad_shape m)
  | ldgp rd imm =>
    exact reg rd rfl rfl (by simp [Instr.accessKind, Instr.access]) (Hart.gpLoad_shape (Hart.onlyRv64_eq_next m))
  | swgp rs2 imm => exact sto .word _ rs2 (fun _ => rfl) rfl rfl (by rwa [← immW_toInt])
  | lhugp rd imm => exact reg rd rfl rfl (by simp [Instr.accessKind, Instr.access]) (Hart.gpLoad_shape m)
  | lwugp rd imm =>
    exact reg rd rfl rfl (by simp [Instr.accessKind, Instr.access]) (Hart.gpLoad_shape (Hart.onlyLwugp_eq_next m))
  | sdgp rs2 imm =>
    exact sto .double _ rs2 (fun _ => rfl) rfl rfl (by rw [← immD_toInt]; exact Hart.onlyRv64_eq_next m)
  | bbc rs1 cimm imm => exact jmp imm rfl rfl rfl (Hart.onlyPositions_eq_next m)
  | bbs rs1 cimm imm => exact jmp imm rfl rfl rfl (Hart.onlyPositions_eq_next m)
  | beqc rs1 cimm imm => exact jmp imm rfl rfl rfl m
  | bnec rs1 cimm imm => exact jmp imm rfl rfl rfl m
  | bfoz rd rs1 msb lsb =>
    exact reg rd rfl rfl (by simp [Instr.accessKind, Instr.access]) ⟨_, Hart.finish_shape (Hart.onlyPositions_eq_next m)⟩
  | bfos rd rs1 msb lsb =>
    exact reg rd rfl rfl (by simp [Instr.accessKind, Instr.access]) ⟨_, Hart.finish_shape (Hart.onlyPositions_eq_next m)⟩
  | leaH rd rs1 rs2 => exact reg rd rfl rfl (by simp [Instr.accessKind, Instr.access]) ⟨_, Hart.finish_shape m⟩
  | leaW rd rs1 rs2 => exact reg rd rfl rfl (by simp [Instr.accessKind, Instr.access]) ⟨_, Hart.finish_shape m⟩
  | leaD rd rs1 rs2 => exact reg rd rfl rfl (by simp [Instr.accessKind, Instr.access]) ⟨_, Hart.finish_shape m⟩
  | leaBZe rd rs1 rs2 =>
    exact reg rd rfl rfl (by simp [Instr.accessKind, Instr.access]) ⟨_, Hart.finish_shape (Hart.onlyRv64_eq_next m)⟩
  | leaHZe rd rs1 rs2 =>
    exact reg rd rfl rfl (by simp [Instr.accessKind, Instr.access]) ⟨_, Hart.finish_shape (Hart.onlyRv64_eq_next m)⟩
  | leaWZe rd rs1 rs2 =>
    exact reg rd rfl rfl (by simp [Instr.accessKind, Instr.access]) ⟨_, Hart.finish_shape (Hart.onlyRv64_eq_next m)⟩
  | leaDZe rd rs1 rs2 =>
    exact reg rd rfl rfl (by simp [Instr.accessKind, Instr.access]) ⟨_, Hart.finish_shape (Hart.onlyRv64_eq_next m)⟩

end Sys2Proof.Machine
end

