-- ==== Sys2Proof/Laws/Fetch.lean ====
section
/-! SUPPORT. What a fetch can do, and what the launch parameters of a placed word say: each once. Later proofs about a step
cite these and unfold neither `Hart.fetch` nor `Hart.placeWord`. -/

namespace Sys2Proof

/-! ## Raising `ADMIT_TIER` -/

@[simp] theorem AdmitTier.including_admits (a : AdmitTier) (t : Tier) : (a.including t).admits t = true := by
  cases a <;> cases t <;> rfl

/-- A tier that was admitted still is. -/
theorem AdmitTier.admits_including {a : AdmitTier} {u : Tier} (t : Tier) (ha : a.admits u = true) :
    (a.including t).admits u = true := by
  cases a <;> cases t <;> cases u <;> first | rfl | cases ha

section
variable (l : Launch) (d : Decoded) (pc : Nat)

@[simp] theorem Launch.admitting_instr (i : Instr) :
    l.admitting (.instr i) = { l with admitTier := l.admitTier.including i.tier } := rfl
@[simp] theorem Launch.admitting_codes : (l.admitting d).codes = l.codes := by cases d <;> rfl
@[simp] theorem Launch.admitting_lwugp : (l.admitting d).lwugpOnRv32 = l.lwugpOnRv32 := by cases d <;> rfl
@[simp] theorem Launch.admitting_ranges : (l.admitting d).admitRanges = l.admitRanges := by cases d <;> rfl
@[simp] theorem Launch.admitting_text : (l.admitting d).text = l.text := by cases d <;> rfl
@[simp] theorem Launch.admitting_endPc : (l.admitting d).endPc = l.endPc := by cases d <;> rfl

/-! ## Making an address fetchable -/

@[simp] theorem Launch.makeFetchable_codes : (l.makeFetchable pc).codes = l.codes := rfl
@[simp] theorem Launch.makeFetchable_lwugp : (l.makeFetchable pc).lwugpOnRv32 = l.lwugpOnRv32 := rfl
@[simp] theorem Launch.makeFetchable_admitTier : (l.makeFetchable pc).admitTier = l.admitTier := rfl

@[simp] theorem Launch.makeFetchable_admits : (l.makeFetchable pc).admits .fetch .word pc = true := by
  by_cases h : l.admits .fetch .word pc = true
  · have e : (l.makeFetchable pc).admitRanges = l.admitRanges := if_pos h
    unfold Launch.admits at h ⊢
    rw [e]; exact h
  · have e : (l.makeFetchable pc).admitRanges = ⟨pc, pc, .word, .fetch⟩ :: l.admitRanges := if_neg h
    unfold Launch.admits
    rw [e]; simp

theorem mem_insertAddress (a : Nat) (as : List Nat) : a ∈ insertAddress a as := by
  induction as with
  | nil => simp [insertAddress]
  | cons b as ih => unfold insertAddress; split_ifs <;> simp_all

@[simp] theorem Launch.mem_makeFetchable_text : pc ∈ (l.makeFetchable pc).text := mem_insertAddress pc l.text

@[simp] theorem Launch.makeFetchable_endPc : (l.makeFetchable pc).endPc ≠ some pc := by
  simp only [Launch.makeFetchable]; split_ifs with h <;> simp [h]

end

end Sys2Proof

namespace Sys2Proof.Machine

variable {x : XLen} {h : Hart x}

/-- Where the next instruction can be fetched, the fetch answers it. -/
theorem Hart.fetch_of_fetches {insn : BitVec 32} (hf : h.Fetches insn) : h.fetch = .next insn := by
  obtain ⟨-, hadm, htext, hwrap, hbytes⟩ := hf
  have hread : h.mem.readBytes h.pc.toNat 4 = some (leBytes 4 insn.toNat) := by
    rw [Memory.readBytes_eq_some]
    refine ⟨by simp, fun k hk => ?_⟩
    have hk' : k < 4 := by simpa using hk
    rw [hbytes k hk', leBytes_eq_extract insn 4 k hk']
  unfold Hart.fetch
  rw [if_pos (by simp [Launch.fetchable, hadm, htext]), if_neg (by omega), hread]
  simp only [leValue_leBytes]
  congr 1
  apply BitVec.eq_of_toNat_eq
  simpa using insn.isLt

/-- A step where the run has not ended begins with the fetch. -/
theorem step_of_not_ended (he : h.launch.endPc ≠ some h.pc.toNat) :
    step ⟨x, h⟩ = andThen h.fetch fun insn => andThen (h.decodeAdmitted insn) fun i => exec i ⟨x, h⟩ :=
  if_neg (by simp [Hart.atEnd, he])

/-- A placed word is what the next fetch reads, at a pc whose word does not wrap. -/
theorem Hart.placeWord_fetches (insn : BitVec 32) (hw : h.pc.toNat + 4 ≤ 2 ^ x.bits) :
    (h.placeWord insn).Fetches insn := by
  refine ⟨?_, ?_, ?_, hw, fun k hk => ?_⟩
  · simp [Hart.placeWord]
  · simp only [Hart.placeWord, Launch.admits, Launch.admitting_ranges]
    exact Launch.makeFetchable_admits h.launch h.pc.toNat
  · simp [Hart.placeWord]
  · have hl : k < (leBytes 4 insn.toNat).length := by simpa using hk
    simp only [Hart.placeWord]
    rw [Memory.read_writeBytes_inside hl, leBytes_eq_extract insn 4 k hl]

end Sys2Proof.Machine
end

