-- ==== Sys2Proof/Laws/PerInstr.lean ====
section
/-! SUPPORT. One law per instruction about its syntax: its word, under the published function codes, has the fixed bits of its
row of `spec/opcode_table.json` (`"match"` under `"mask"`), whatever its operands are. -/

namespace Sys2Proof.Laws.TableRow

/-- The row's `"match"` and `"mask"`. -/
def row : Instr → BitVec 32 × BitVec 32
  | .lbgp _ _ => (0x0000000B#32, 0x0000307F#32)
  | .addigp _ _ => (0x0000100B#32, 0x0000307F#32)
  | .lbugp _ _ => (0x0000200B#32, 0x0000307F#32)
  | .sbgp _ _ => (0x0000300B#32, 0x0000307F#32)
  | .shgp _ _ => (0x0000002B#32, 0x0000707F#32)
  | .lhgp _ _ => (0x0000102B#32, 0x0000707F#32)
  | .lwgp _ _ => (0x0000202B#32, 0x0000707F#32)
  | .ldgp _ _ => (0x0000302B#32, 0x0000707F#32)
  | .swgp _ _ => (0x0000402B#32, 0x0000707F#32)
  | .lhugp _ _ => (0x0000502B#32, 0x0000707F#32)
  | .lwugp _ _ => (0x0000602B#32, 0x0000707F#32)
  | .sdgp _ _ => (0x0000702B#32, 0x0000707F#32)
  | .bbc _ _ _ => (0x0000705B#32, 0x4000707F#32)
  | .bbs _ _ _ => (0x4000705B#32, 0x4000707F#32)
  | .beqc _ _ _ => (0x0000505B#32, 0x0000707F#32)
  | .bnec _ _ _ => (0x0000605B#32, 0x0000707F#32)
  | .bfoz _ _ _ _ => (0x0000205B#32, 0x0000707F#32)
  | .bfos _ _ _ _ => (0x0000305B#32, 0x0000707F#32)
  | .leaH _ _ _ => (0x0A00005B#32, 0xFE00707F#32)
  | .leaW _ _ _ => (0x0C00005B#32, 0xFE00707F#32)
  | .leaD _ _ _ => (0x0E00005B#32, 0xFE00707F#32)
  | .leaBZe _ _ _ => (0x1000005B#32, 0xFE00707F#32)
  | .leaHZe _ _ _ => (0x1200005B#32, 0xFE00707F#32)
  | .leaWZe _ _ _ => (0x1400005B#32, 0xFE00707F#32)
  | .leaDZe _ _ _ => (0x1600005B#32, 0xFE00707F#32)

/-- The word of an instruction under its row's mask is its row's match. -/
def Statement (i : Instr) : Prop := encode .published i &&& (row i).2 = (row i).1

theorem lbgp (rd : Reg) (imm : BitVec 18) : Statement (.lbgp rd imm) := by
  apply BitVec.eq_of_getLsbD_eq
  intro j hj
  interval_cases j <;>
    simp only [row, encode, encGB, BitVec.getLsbD_and, BitVec.getLsbD_append, BitVec.getLsbD_extractLsb] <;>
    first | rfl | exact Bool.and_false _

theorem addigp (rd : Reg) (imm : BitVec 18) : Statement (.addigp rd imm) := by
  apply BitVec.eq_of_getLsbD_eq
  intro j hj
  interval_cases j <;>
    simp only [row, encode, encGB, BitVec.getLsbD_and, BitVec.getLsbD_append, BitVec.getLsbD_extractLsb] <;>
    first | rfl | exact Bool.and_false _

theorem lbugp (rd : Reg) (imm : BitVec 18) : Statement (.lbugp rd imm) := by
  apply BitVec.eq_of_getLsbD_eq
  intro j hj
  interval_cases j <;>
    simp only [row, encode, encGB, BitVec.getLsbD_and, BitVec.getLsbD_append, BitVec.getLsbD_extractLsb] <;>
    first | rfl | exact Bool.and_false _

theorem sbgp (rs2 : Reg) (imm : BitVec 18) : Statement (.sbgp rs2 imm) := by
  apply BitVec.eq_of_getLsbD_eq
  intro j hj
  interval_cases j <;>
    simp only [row, encode, encGSB, BitVec.getLsbD_and, BitVec.getLsbD_append, BitVec.getLsbD_extractLsb] <;>
    first | rfl | exact Bool.and_false _

theorem shgp (rs2 : Reg) (imm : BitVec 17) : Statement (.shgp rs2 imm) := by
  apply BitVec.eq_of_getLsbD_eq
  intro j hj
  interval_cases j <;>
    simp only [row, encode, encGSH, BitVec.getLsbD_and, BitVec.getLsbD_append, BitVec.getLsbD_extractLsb] <;>
    first | rfl | exact Bool.and_false _

theorem lhgp (rd : Reg) (imm : BitVec 17) : Statement (.lhgp rd imm) := by
  apply BitVec.eq_of_getLsbD_eq
  intro j hj
  interval_cases j <;>
    simp only [row, encode, encGH, BitVec.getLsbD_and, BitVec.getLsbD_append, BitVec.getLsbD_extractLsb] <;>
    first | rfl | exact Bool.and_false _

theorem lwgp (rd : Reg) (imm : BitVec 17) : Statement (.lwgp rd imm) := by
  apply BitVec.eq_of_getLsbD_eq
  intro j hj
  interval_cases j <;>
    simp only [row, encode, encGW, BitVec.getLsbD_and, BitVec.getLsbD_append, BitVec.getLsbD_extractLsb] <;>
    first | rfl | exact Bool.and_false _

theorem ldgp (rd : Reg) (imm : BitVec 17) : Statement (.ldgp rd imm) := by
  apply BitVec.eq_of_getLsbD_eq
  intro j hj
  interval_cases j <;>
    simp only [row, encode, encGD, BitVec.getLsbD_and, BitVec.getLsbD_append, BitVec.getLsbD_extractLsb] <;>
    first | rfl | exact Bool.and_false _

theorem swgp (rs2 : Reg) (imm : BitVec 17) : Statement (.swgp rs2 imm) := by
  apply BitVec.eq_of_getLsbD_eq
  intro j hj
  interval_cases j <;>
    simp only [row, encode, encGSW, BitVec.getLsbD_and, BitVec.getLsbD_append, BitVec.getLsbD_extractLsb] <;>
    first | rfl | exact Bool.and_false _

theorem lhugp (rd : Reg) (imm : BitVec 17) : Statement (.lhugp rd imm) := by
  apply BitVec.eq_of_getLsbD_eq
  intro j hj
  interval_cases j <;>
    simp only [row, encode, encGH, BitVec.getLsbD_and, BitVec.getLsbD_append, BitVec.getLsbD_extractLsb] <;>
    first | rfl | exact Bool.and_false _

theorem lwugp (rd : Reg) (imm : BitVec 17) : Statement (.lwugp rd imm) := by
  apply BitVec.eq_of_getLsbD_eq
  intro j hj
  interval_cases j <;>
    simp only [row, encode, encGW, BitVec.getLsbD_and, BitVec.getLsbD_append, BitVec.getLsbD_extractLsb] <;>
    first | rfl | exact Bool.and_false _

theorem sdgp (rs2 : Reg) (imm : BitVec 17) : Statement (.sdgp rs2 imm) := by
  apply BitVec.eq_of_getLsbD_eq
  intro j hj
  interval_cases j <;>
    simp only [row, encode, encGSD, BitVec.getLsbD_and, BitVec.getLsbD_append, BitVec.getLsbD_extractLsb] <;>
    first | rfl | exact Bool.and_false _

theorem bbc (rs1 : Reg) (cimm : Fin 64) (imm : BitVec 10) : Statement (.bbc rs1 cimm imm) := by
  apply BitVec.eq_of_getLsbD_eq
  intro j hj
  interval_cases j <;>
    simp only [row, encode, encBB, BitVec.getLsbD_and, BitVec.getLsbD_append, BitVec.getLsbD_extractLsb] <;>
    first | rfl | exact Bool.and_false _

theorem bbs (rs1 : Reg) (cimm : Fin 64) (imm : BitVec 10) : Statement (.bbs rs1 cimm imm) := by
  apply BitVec.eq_of_getLsbD_eq
  intro j hj
  interval_cases j <;>
    simp only [row, encode, encBB, BitVec.getLsbD_and, BitVec.getLsbD_append, BitVec.getLsbD_extractLsb] <;>
    first | rfl | exact Bool.and_false _

theorem beqc (rs1 : Reg) (cimm : BitVec 7) (imm : BitVec 10) : Statement (.beqc rs1 cimm imm) := by
  apply BitVec.eq_of_getLsbD_eq
  intro j hj
  interval_cases j <;>
    simp only [row, encode, encBC, BitVec.getLsbD_and, BitVec.getLsbD_append, BitVec.getLsbD_extractLsb] <;>
    first | rfl | exact Bool.and_false _

theorem bnec (rs1 : Reg) (cimm : BitVec 7) (imm : BitVec 10) : Statement (.bnec rs1 cimm imm) := by
  apply BitVec.eq_of_getLsbD_eq
  intro j hj
  interval_cases j <;>
    simp only [row, encode, encBC, BitVec.getLsbD_and, BitVec.getLsbD_append, BitVec.getLsbD_extractLsb] <;>
    first | rfl | exact Bool.and_false _

theorem bfoz (rd : Reg) (rs1 : Reg) (msb : Fin 64) (lsb : Fin 64) : Statement (.bfoz rd rs1 msb lsb) := by
  apply BitVec.eq_of_getLsbD_eq
  intro j hj
  interval_cases j <;>
    simp only [row, encode, encBF, BitVec.getLsbD_and, BitVec.getLsbD_append] <;>
    first | rfl | exact Bool.and_false _

theorem bfos (rd : Reg) (rs1 : Reg) (msb : Fin 64) (lsb : Fin 64) : Statement (.bfos rd rs1 msb lsb) := by
  apply BitVec.eq_of_getLsbD_eq
  intro j hj
  interval_cases j <;>
    simp only [row, encode, encBF, BitVec.getLsbD_and, BitVec.getLsbD_append] <;>
    first | rfl | exact Bool.and_false _

theorem leaH (rd : Reg) (rs1 : Reg) (rs2 : Reg) : Statement (.leaH rd rs1 rs2) := by
  apply BitVec.eq_of_getLsbD_eq
  intro j hj
  interval_cases j <;>
    simp only [row, encode, encR, BitVec.getLsbD_and, BitVec.getLsbD_append] <;>
    first | rfl | exact Bool.and_false _

theorem leaW (rd : Reg) (rs1 : Reg) (rs2 : Reg) : Statement (.leaW rd rs1 rs2) := by
  apply BitVec.eq_of_getLsbD_eq
  intro j hj
  interval_cases j <;>
    simp only [row, encode, encR, BitVec.getLsbD_and, BitVec.getLsbD_append] <;>
    first | rfl | exact Bool.and_false _

theorem leaD (rd : Reg) (rs1 : Reg) (rs2 : Reg) : Statement (.leaD rd rs1 rs2) := by
  apply BitVec.eq_of_getLsbD_eq
  intro j hj
  interval_cases j <;>
    simp only [row, encode, encR, BitVec.getLsbD_and, BitVec.getLsbD_append] <;>
    first | rfl | exact Bool.and_false _

theorem leaBZe (rd : Reg) (rs1 : Reg) (rs2 : Reg) : Statement (.leaBZe rd rs1 rs2) := by
  apply BitVec.eq_of_getLsbD_eq
  intro j hj
  interval_cases j <;>
    simp only [row, encode, encR, BitVec.getLsbD_and, BitVec.getLsbD_append] <;>
    first | rfl | exact Bool.and_false _

theorem leaHZe (rd : Reg) (rs1 : Reg) (rs2 : Reg) : Statement (.leaHZe rd rs1 rs2) := by
  apply BitVec.eq_of_getLsbD_eq
  intro j hj
  interval_cases j <;>
    simp only [row, encode, encR, BitVec.getLsbD_and, BitVec.getLsbD_append] <;>
    first | rfl | exact Bool.and_false _

theorem leaWZe (rd : Reg) (rs1 : Reg) (rs2 : Reg) : Statement (.leaWZe rd rs1 rs2) := by
  apply BitVec.eq_of_getLsbD_eq
  intro j hj
  interval_cases j <;>
    simp only [row, encode, encR, BitVec.getLsbD_and, BitVec.getLsbD_append] <;>
    first | rfl | exact Bool.and_false _

theorem leaDZe (rd : Reg) (rs1 : Reg) (rs2 : Reg) : Statement (.leaDZe rd rs1 rs2) := by
  apply BitVec.eq_of_getLsbD_eq
  intro j hj
  interval_cases j <;>
    simp only [row, encode, encR, BitVec.getLsbD_and, BitVec.getLsbD_append] <;>
    first | rfl | exact Bool.and_false _

end Sys2Proof.Laws.TableRow
end

