-- ==== Sys2Proof/Tests/Slice0.lean ====
section
/-! SUPPORT. The model's own tests: the checks of `WellFormed`, the words of `95_test_vectors.md` (sections 2 to 4) and its
semantic vectors (sections 5 to 10), and for each obligation with hypotheses a state and operands that meet them. The
expected values are the spec's own, or a witness's hypotheses evaluated. -/

namespace Sys2Proof.Tests

open Sys2Proof Sys2Proof.Machine

/-! ## Small states -/

/-- The launch of section 9 of the test vectors: sixteen data bytes admitted, and two words of program text. -/
def launch : Launch :=
  { resetLaunch with
    admitRanges :=
      [ ⟨0x10000000, 0x1000000F, .byte, .load⟩, ⟨0x10000000, 0x1000000E, .half, .load⟩,
        ⟨0x10000000, 0x1000000C, .word, .load⟩, ⟨0x10000000, 0x10000008, .double, .load⟩,
        ⟨0x10000000, 0x1000000F, .byte, .store⟩, ⟨0x10000000, 0x1000000E, .half, .store⟩,
        ⟨0x10000000, 0x1000000C, .word, .store⟩, ⟨0x10000000, 0x10000008, .double, .store⟩,
        ⟨0, 0xFFFF, .word, .fetch⟩ ]
    text := [0x1000, 0x1004] }

/-- The sixteen bytes of section 9. -/
def table : Memory :=
  [ (0x10000000, 0x78#8), (0x10000001, 0x56#8), (0x10000002, 0x34#8), (0x10000003, 0xF2#8),
    (0x10000004, 0x01#8), (0x10000005, 0x00#8), (0x10000006, 0x00#8), (0x10000007, 0x80#8) ] ++
  [ (0x10000008, 0x80#8), (0x10000009, 0x7F#8), (0x1000000A, 0xFF#8), (0x1000000B, 0xFF#8),
    (0x1000000C, 0x00#8), (0x1000000D, 0x00#8), (0x1000000E, 0x00#8), (0x1000000F, 0x00#8) ]

/-- A hart at a pc with some registers set, the others zero. -/
def hart (x : XLen) (l : Launch) (pc : Nat) (rs : List (Reg × Nat)) (m : Memory) : Hart x :=
  rs.foldl (fun h p => h.writeReg p.1 (BitVec.ofNat x.bits p.2))
    { regs := Vector.replicate 32 0, pc := BitVec.ofNat x.bits pc, mem := m, launch := l }

/-- The register and the pc after an instruction, as numbers. -/
def result (i : Instr) {x : XLen} (h : Hart x) (r : Reg) : Option (Nat × Nat) :=
  match exec i ⟨x, h⟩ with
  | .next s => some ((s.hart.readReg r).toNat, s.hart.pc.toNat)
  | _ => none

/-- Some bytes after an instruction. -/
def bytes (i : Instr) {x : XLen} (h : Hart x) (as : List Nat) : List (Option Byte) :=
  match exec i ⟨x, h⟩ with
  | .next s => as.map s.hart.mem.read
  | _ => []

/-- The fault of an instruction. -/
def faultOf (i : Instr) {x : XLen} (h : Hart x) : Option Fault :=
  match exec i ⟨x, h⟩ with
  | .fault f => some f
  | _ => none

/-- Whether an outcome is a next state. -/
def isNext (o : Host.Outcome State Fault Refusal) : Bool :=
  match o with
  | .next _ => true
  | _ => false

theorem exists_next {o : Host.Outcome State Fault Refusal} (h : isNext o = true) : ∃ s, o = .next s := by
  cases o with
  | next s => exact ⟨s, rfl⟩
  | fault f => cases h
  | refused r => cases h

/-- `exec` keeps the width, so a next state is a hart of the same width. -/
theorem exists_hart {i : Instr} {x : XLen} {h : Hart x} (e : isNext (exec i ⟨x, h⟩) = true) :
    ∃ h' : Hart x, exec i ⟨x, h⟩ = .next ⟨x, h'⟩ := by
  obtain ⟨s, e⟩ := exists_next e
  obtain ⟨h', rfl, -⟩ := exec_shape e
  exact ⟨h', e⟩

/-! ## WellFormed: one ill-formed instruction for each check -/

theorem test_wellformed_refuses_rv64_only_on_rv32 : ¬ (Instr.ldgp 10 0).WidthOk .rv32 := by decide
theorem test_wellformed_refuses_position_32_on_rv32 : ¬ (Instr.bfos 6 7 3 32).PositionsOk .rv32 := by decide
theorem test_wellformed_refuses_lwugp_on_rv32 : ¬ (Instr.lwugp 13 1).LwugpOk .rv32 .illegal := by decide
theorem test_wellformed_accepts : (Instr.bfos 6 7 31 31).WellFormed .rv32 .illegal ∧
    (Instr.ldgp 10 0).WellFormed .rv64 .illegal ∧ (Instr.lwugp 13 1).WellFormed .rv32 .legal := by decide

/-! ## Decoding: every constructor, from a word of the spec -/

/-! The words of section 2, written out bit by bit. -/

theorem test_decode_addigp : decode .rv32 .legal .published (0b0#1 ++ 0b1111111111#10 ++ 0b0#1 ++ 0b111#3 ++ 0b11#2 ++ 0b0#1 ++ 0b01#2 ++ 0b00101#5 ++ 0b0001011#7 : BitVec 32) = .instr (.addigp 5 0x1F7FE#18) := by decide
theorem test_decode_sbgp : decode .rv32 .legal .published (0b0#1 ++ 0b000000#6 ++ 0b01111#5 ++ 0b000#3 ++ 0b00#2 ++ 0b1#1 ++ 0b11#2 ++ 0b0000#4 ++ 0b1#1 ++ 0b0001011#7 : BitVec 32) = .instr (.sbgp 15 0x801#18) := by decide
theorem test_decode_lhgp : decode .rv32 .legal .published (0b1#1 ++ 0b1111111111#10 ++ 0b1#1 ++ 0b111#3 ++ 0b11#2 ++ 0b001#3 ++ 0b01100#5 ++ 0b0101011#7 : BitVec 32) = .instr (.lhgp 12 0x1FFFF#17) := by decide
theorem test_decode_lwgp : decode .rv32 .legal .published (0b0#1 ++ 0b000000000#9 ++ 0b1#1 ++ 0b0#1 ++ 0b000#3 ++ 0b00#2 ++ 0b010#3 ++ 0b01101#5 ++ 0b0101011#7 : BitVec 32) = .instr (.lwgp 13 0x8000#17) := by decide
theorem test_decode_ldgp : decode .rv64 .legal .published (0b0#1 ++ 0b00000000#8 ++ 0b10#2 ++ 0b0#1 ++ 0b000#3 ++ 0b00#2 ++ 0b011#3 ++ 0b01110#5 ++ 0b0101011#7 : BitVec 32) = .instr (.ldgp 14 0x8000#17) := by decide
theorem test_decode_shgp : decode .rv32 .legal .published (0b0#1 ++ 0b000001#6 ++ 0b01101#5 ++ 0b000#3 ++ 0b00#2 ++ 0b000#3 ++ 0b0010#4 ++ 0b0#1 ++ 0b0101011#7 : BitVec 32) = .instr (.shgp 13 0x12#17) := by decide
theorem test_decode_swgp : decode .rv32 .legal .published (0b0#1 ++ 0b000000#6 ++ 0b01111#5 ++ 0b000#3 ++ 0b00#2 ++ 0b100#3 ++ 0b111#3 ++ 0b0#1 ++ 0b0#1 ++ 0b0101011#7 : BitVec 32) = .instr (.swgp 15 0x7#17) := by decide
theorem test_decode_sdgp : decode .rv64 .legal .published (0b0#1 ++ 0b000000#6 ++ 0b01111#5 ++ 0b000#3 ++ 0b00#2 ++ 0b111#3 ++ 0b00#2 ++ 0b11#2 ++ 0b0#1 ++ 0b0101011#7 : BitVec 32) = .instr (.sdgp 15 0xC000#17) := by decide
theorem test_decode_bbs : decode .rv64 .legal .published (0b0#1 ++ 0b1#1 ++ 0b00000#5 ++ 0b11111#5 ++ 0b01010#5 ++ 0b111#3 ++ 0b0100#4 ++ 0b1#1 ++ 0b1011011#7 : BitVec 32) = .instr (.bbs 10 63 4#10) := by decide
theorem test_decode_bnec : decode .rv32 .legal .published (0b1#1 ++ 0b0#1 ++ 0b11111#5 ++ 0b01010#5 ++ 0b00101#5 ++ 0b110#3 ++ 0b1100#4 ++ 0b0#1 ++ 0b1011011#7 : BitVec 32) = .instr (.bnec 5 10#7 0x3FC#10) := by decide
theorem test_decode_bfos : decode .rv32 .legal .published (0b001111#6 ++ 0b001100#6 ++ 0b01010#5 ++ 0b011#3 ++ 0b01100#5 ++ 0b1011011#7 : BitVec 32) = .instr (.bfos 12 10 15 12) := by decide
theorem test_decode_leaW : decode .rv32 .legal .published (0b0000110#7 ++ 0b01011#5 ++ 0b01010#5 ++ 0b000#3 ++ 0b01100#5 ++ 0b1011011#7 : BitVec 32) = .instr (.leaW 12 10 11) := by decide

/-! Words of section 3. -/

theorem test_decode_lbgp : decode .rv32 .legal .published 0x8000458B#32 = .instr (.lbgp 11 0x20001#18) := by decide
theorem test_decode_lbugp : decode .rv32 .legal .published 0x0040658B#32 = .instr (.lbugp 11 5#18) := by decide
theorem test_decode_lhugp : decode .rv32 .legal .published 0x0200552B#32 = .instr (.lhugp 10 0x10#17) := by decide
theorem test_decode_lwugp : decode .rv32 .legal .published 0x800066AB#32 = .instr (.lwugp 13 0x10000#17) := by decide
theorem test_decode_bbc : decode .rv64 .legal .published 0x3E057FDB#32 = .instr (.bbc 10 32 0x1FF#10) := by decide
theorem test_decode_beqc : decode .rv32 .legal .published 0xC1F4D0DB#32 = .instr (.beqc 9 127#7 0x200#10) := by decide
theorem test_decode_bfoz : decode .rv64 .legal .published 0xFC03A35B#32 = .instr (.bfoz 6 7 63 0) := by decide
theorem test_decode_leaH : decode .rv32 .legal .published 0x0A6282DB#32 = .instr (.leaH 5 5 6) := by decide
theorem test_decode_leaD : decode .rv32 .legal .published 0x0E7302DB#32 = .instr (.leaD 5 6 7) := by decide
theorem test_decode_leaBZe : decode .rv64 .legal .published 0x107302DB#32 = .instr (.leaBZe 5 6 7) := by decide
theorem test_decode_leaHZe : decode .rv64 .legal .published 0x127302DB#32 = .instr (.leaHZe 5 6 7) := by decide
theorem test_decode_leaWZe : decode .rv64 .legal .published 0x147302DB#32 = .instr (.leaWZe 5 6 7) := by decide
theorem test_decode_leaDZe : decode .rv64 .legal .published 0x167302DB#32 = .instr (.leaDZe 5 6 7) := by decide
theorem test_decode_lwgp_bit11 : decode .rv32 .legal .published 0x001026AB#32 = .instr (.lwgp 13 0x200#17) := by decide
theorem test_decode_ldgp_bit17 : decode .rv64 .legal .published 0x0020372B#32 = .instr (.ldgp 14 0x4000#17) := by decide
theorem test_decode_swgp_bit17 : decode .rv32 .legal .published 0x00F0412B#32 = .instr (.swgp 15 0x8000#17) := by decide
theorem test_decode_sdgp_bits4_3 : decode .rv64 .legal .published 0x00F07C2B#32 = .instr (.sdgp 15 3#17) := by decide
theorem test_decode_sbgp_negative : decode .rv32 .legal .published 0xFEFFFF8B#32 = .instr (.sbgp 15 0x3FFFF#18) := by decide

/-! Words that are no instruction (section 4). -/

theorem test_decode_illegal_on_rv32 :
    decode .rv32 .legal .published 0x000574DB#32 = .illegal .zeroBitSet ∧
    decode .rv32 .legal .published 0x8003A35B#32 = .illegal .zeroBitSet ∧
    decode .rv32 .legal .published 0x0203A35B#32 = .illegal .zeroBitSet ∧
    decode .rv32 .legal .published 0x0000352B#32 = .illegal .rv64Only ∧
    decode .rv32 .legal .published 0x00C0742B#32 = .illegal .rv64Only ∧
    decode .rv32 .legal .published 0x147302DB#32 = .illegal .rv64Only ∧
    decode .rv32 .illegal .published 0x800066AB#32 = .illegal .lwugpOnRv32 := by decide

theorem test_decode_unknown :
    decode .rv64 .legal .published 0x0000105B#32 = .unknown .func3 ∧
    decode .rv64 .legal .published 0x0000405B#32 = .unknown .func3 ∧
    decode .rv64 .legal .published 0x0800005B#32 = .unknown .funct7 ∧
    decode .rv64 .legal .published 0x1800005B#32 = .unknown .funct7 ∧
    decode .rv64 .legal .published 0x00000013#32 = .unknown .majorOpcode ∧
    decode .rv64 .legal .published 0x0000007B#32 = .unknown .majorOpcode ∧
    decode .rv64 .legal .published 0xFFFFFFFF#32 = .unknown .majorOpcode := by decide

theorem test_decodeTableWord : decodeTableWord 32 0xFFFFD50B = some (.addigp 10 0x3FFFF#18) := by decide

/-! ## Meanings: the semantic vectors -/

/-- The hart of sections 5 and 9 (`x3 = 0x10000000` unless said otherwise), at pc `0x1000`. -/
def gpHart (x : XLen) (gp : Nat) : Hart x := hart x launch 0x1000 [(3, gp)] table

/-- A hart with the two index registers of section 8. -/
def leaHart (x : XLen) (x6 x7 : Nat) : Hart x := hart x launch 0x1000 [(6, x6), (7, x7)] []

/-- A hart with one register set, for sections 6 and 7. -/
def regHart (x : XLen) (pc : Nat) (r : Reg) (v : Nat) : Hart x := hart x launch pc [(r, v)] []

/-- The same with `IALIGN = 32`. -/
def regHart32 (x : XLen) (pc : Nat) (r : Reg) (v : Nat) : Hart x :=
  hart x { launch with ialign := .bits32 } pc [(r, v)] []

/-- The hart of section 9 with `MISALIGNED_DATA = split`. -/
def splitHart (gp : Nat) : Hart .rv32 := hart .rv32 { launch with misaligned := .split } 0x1000 [(3, gp)] table

/-- The hart of section 10: sixteen admitted bytes, every one `EE`. -/
def storeHart (x : XLen) (gp : Nat) (r : Reg) (v : Nat) : Hart x :=
  hart x launch 0x1000 [(3, gp), (r, v)] ((List.range 16).map fun k => (0x10000000 + k, 0xEE#8))

theorem test_addigp_wraps : result (.addigp 10 1#18) (gpHart .rv32 0xFFFFFFFF) 10 = some (0x0, 0x1004) := by decide
theorem test_addigp_rd_is_gp : result (.addigp 3 8#18) (gpHart .rv32 0x10000000) 3 = some (0x10000008, 0x1004) := by decide
theorem test_bbc_taken_far : result (.bbc 10 33 0x1FF#10) (regHart .rv64 0x1000 10 0x80000001F2345678) 10 = some (0x80000001F2345678, 0x13FE) := by decide
theorem test_bbc_misaligned_target : faultOf (.bbc 10 33 0x1FF#10) (regHart32 .rv64 0x1000 10 0x80000001F2345678) = some (.instructionAddressMisaligned 0x1000 0x13FE) := by decide
theorem test_bbs_backward : result (.bbs 7 5 0x200#10) (regHart .rv32 0x1400 7 0x20) 7 = some (0x20, 0x1000) := by decide
theorem test_bbs_x0_never : result (.bbs 0 7 4#10) (regHart .rv32 0x1000 1 0) 0 = some (0x0, 0x1004) := by decide
theorem test_beqc_compares_all_bits : result (.beqc 9 5#7 4#10) (regHart .rv64 0x1000 9 0x100000005) 9 = some (0x100000005, 0x1004) := by decide
theorem test_beqc_taken : result (.beqc 9 127#7 0x200#10) (regHart .rv32 0x1400 9 0x7F) 9 = some (0x7F, 0x1000) := by decide
theorem test_bnec_taken_backward : result (.bnec 5 10#7 0x3FC#10) (regHart .rv32 0x108 5 4) 5 = some (0x4, 0x100) := by decide
theorem test_bnec_not_taken : result (.bnec 5 10#7 0x3FC#10) (regHart .rv32 0x108 5 10) 5 = some (0xA, 0x10C) := by decide
theorem test_bfoz_insert : result (.bfoz 13 11 4 8) (regHart .rv32 0x1000 11 0xC) 13 = some (0xC0, 0x1004) := by decide
theorem test_bfoz_extract_rv64 : result (.bfoz 10 10 63 32) (regHart .rv64 0x1000 10 0x80000001F2345678) 10 = some (0x80000001, 0x1004) := by decide
theorem test_bfos_insert : result (.bfos 12 10 4 8) (regHart .rv32 0x1000 10 0x12345678) 12 = some (0xFFFFFF80, 0x1004) := by decide
theorem test_bfos_one_bit : result (.bfos 12 10 0 5) (regHart .rv32 0x1000 10 0xB6C5) 12 = some (0xFFFFFFE0, 0x1004) := by decide
theorem test_leaH_loses_the_top_bit : result (.leaH 5 6 7) (leaHart .rv32 0x1000 0x80000001) 5 = some (0x1002, 0x1004) := by decide
theorem test_leaH_same_register : result (.leaH 6 6 6) (leaHart .rv32 7 0) 6 = some (0x15, 0x1004) := by decide
theorem test_leaW : result (.leaW 5 6 7) (leaHart .rv64 1 0x80000001) 5 = some (0x200000005, 0x1004) := by decide
theorem test_leaD_wraps : result (.leaD 5 6 7) (leaHart .rv64 0xFFFFFFFFFFFFFFF8 1) 5 = some (0x0, 0x1004) := by decide
theorem test_leaBZe : result (.leaBZe 5 6 7) (leaHart .rv64 0x1000 0xFFFFFFFFFFFFFFFF) 5 = some (0x100000FFF, 0x1004) := by decide
theorem test_leaHZe : result (.leaHZe 5 6 7) (leaHart .rv64 0x1000 0xFFFFFFFFFFFFFFFF) 5 = some (0x200000FFE, 0x1004) := by decide
theorem test_leaWZe : result (.leaWZe 5 6 7) (leaHart .rv64 0x1000 0x100000002) 5 = some (0x1008, 0x1004) := by decide
theorem test_leaWZe_on_rv32 : faultOf (.leaWZe 5 6 7) (leaHart .rv32 0 0) = some (.illegalInstruction 0x1000 0x147302DB) := by decide
theorem test_leaDZe : result (.leaDZe 5 6 7) (leaHart .rv64 0x1000 0xFFFFFFFFFFFFFFFF) 5 = some (0x800000FF8, 0x1004) := by decide
theorem test_lbgp_sign_extends : result (.lbgp 11 3#18) (gpHart .rv64 0x10000000) 11 = some (0xFFFFFFFFFFFFFFF2, 0x1004) := by decide
theorem test_lbgp_x0_still_accesses : faultOf (.lbgp 0 16#18) (gpHart .rv32 0x10000000) = some (.loadAccessFault 0x1000 0x10000010) := by decide
theorem test_lbugp_zero_extends : result (.lbugp 11 3#18) (gpHart .rv32 0x10000000) 11 = some (0xF2, 0x1004) := by decide
theorem test_lbugp_zero_extends_its_offset : faultOf (.lbugp 13 0x20001#18) (gpHart .rv32 0x10000000) = some (.loadAccessFault 0x1000 0x10020001) := by decide
theorem test_lhgp : result (.lhgp 11 1#17) (gpHart .rv32 0x10000000) 11 = some (0xFFFFF234, 0x1004) := by decide
theorem test_lhgp_misaligned : faultOf (.lhgp 13 3#17) (gpHart .rv32 0x10000001) = some (.loadAddressMisaligned 0x1000 0x10000007) := by decide
theorem test_lhugp : result (.lhugp 11 1#17) (gpHart .rv32 0x10000000) 11 = some (0xF234, 0x1004) := by decide
theorem test_lwgp_negative_offset : result (.lwgp 13 0x1FFFF#17) (gpHart .rv32 0x10000008) 13 = some (0x80000001, 0x1004) := by decide
theorem test_lwgp_split : result (.lwgp 13 0#17) (splitHart 0x10000002) 13 = some (0x1F234, 0x1004) := by decide
theorem test_lwugp : result (.lwugp 11 1#17) (gpHart .rv64 0x10000000) 11 = some (0x80000001, 0x1004) := by decide
theorem test_lwugp_zero_extends_its_offset : faultOf (.lwugp 13 0x10000#17) (gpHart .rv32 0x10000000) = some (.loadAccessFault 0x1000 0x10040000) := by decide
theorem test_ldgp : result (.ldgp 11 0#17) (gpHart .rv64 0x10000000) 11 = some (0x80000001F2345678, 0x1004) := by decide
theorem test_ldgp_on_rv32 : faultOf (.ldgp 11 1#17) (gpHart .rv32 0x10000000) = some (.illegalInstruction 0x1000 0x008035AB) := by decide
theorem test_sbgp : bytes (.sbgp 11 2#18) (storeHart .rv32 0x10000000 11 0x1234560C) [0x10000001, 0x10000002, 0x10000003] =
    [some 0xEE#8, some 0x0C#8, some 0xEE#8] := by decide
theorem test_shgp : bytes (.shgp 13 2#17) (storeHart .rv32 0x10000000 13 0xABCD00C0) [0x10000003, 0x10000004, 0x10000005, 0x10000006] =
    [some 0xEE#8, some 0xC0#8, some 0x00#8, some 0xEE#8] := by decide
theorem test_swgp : bytes (.swgp 12 2#17) (storeHart .rv64 0x10000000 12 0xAABBCCDD11223344) [0x10000007, 0x10000008, 0x10000009, 0x1000000A, 0x1000000B, 0x1000000C] =
    [some 0xEE#8, some 0x44#8, some 0x33#8, some 0x22#8, some 0x11#8, some 0xEE#8] := by decide
theorem test_sdgp : bytes (.sdgp 14 1#17) (storeHart .rv64 0x10000000 14 0x1122334455667788) [0x10000007, 0x10000008, 0x10000009, 0x1000000A, 0x1000000B, 0x1000000C, 0x1000000D, 0x1000000E, 0x1000000F] =
    [some 0xEE#8, some 0x88#8, some 0x77#8, some 0x66#8, some 0x55#8, some 0x44#8, some 0x33#8, some 0x22#8, some 0x11#8] := by decide
theorem test_swgp_misaligned : faultOf (.swgp 12 2#17) (storeHart .rv32 0x10000002 12 1) = some (.storeAddressMisaligned 0x1000 0x1000000A) := by decide
theorem test_sdgp_on_rv32 : faultOf (.sdgp 12 1#17) (storeHart .rv32 0x10000000 12 1) = some (.illegalInstruction 0x1000 0x00C0742B) := by decide
theorem test_sbgp_not_admitted : faultOf (.sbgp 11 0#18) (storeHart .rv32 0x20000000 11 1) = some (.storeAccessFault 0x1000 0x20000000) := by decide

/-! ## Witnesses: a state and operands that meet the hypotheses of each obligation that has any -/

/-- A hart whose next word is given, placed at the pc. -/
def fetching (x : XLen) (l : Launch) (pc : Nat) (rs : List (Reg × Nat)) (m : Memory) (insn : BitVec 32) : Hart x :=
  (hart x l pc rs m).placeWord insn

/-- A hart about to run LWGP x11, [+4], at the first word of its text. -/
def demo : Hart .rv64 := fetching .rv64 launch 0x1000 [(3, 0x10000000)] table 0x004025AB#32

/-- The same with a store, SBGP x11, [+2]. -/
def demoStore : Hart .rv64 := fetching .rv64 launch 0x1000 [(3, 0x10000000), (11, 0xC)] table 0x00B0310B#32

theorem witness_EveryStepKeepsInvariant : State.Inv ⟨.rv64, demo⟩ ∧ ∃ s, step ⟨.rv64, demo⟩ = .next s :=
  ⟨by decide, exists_next (by decide)⟩

theorem witness_StepKeepsLaunchAndProgramText :
    (∃ s, step ⟨.rv64, demoStore⟩ = .next s) ∧ 0x1004 ∈ demoStore.launch.text ∧ 3 < 4 :=
  ⟨exists_next (by decide), by decide, by decide⟩

theorem witness_StepRunsTheDecodedInstruction :
    demo.Fetches 0x004025AB#32 ∧
    decode .rv64 demo.launch.lwugpOnRv32 demo.launch.codes 0x004025AB#32 = .instr (.lwgp 11 1#17) ∧
    demo.launch.admitTier.admits (Instr.lwgp 11 1#17).tier = true := by decide

/-- LEA.d at a pc of the text, under the default `ADMIT_TIER`. -/
def unadmitted : Hart .rv32 :=
  let h := fetching .rv32 launch 0x1000 [] [] 0x0E7302DB#32
  { h with launch := { h.launch with admitTier := .sp } }

/-- The clauses: outside the text (no text at all, and inside a word but not at its start), a word that wraps, a byte
without a value, an `Illegal` word, an `Unknown` word, a tier not admitted. -/
theorem witness_StepStopsBeforeTheInstruction :
    (State.reset.hart.launch.endPc ≠ some State.reset.hart.pc.toNat ∧
      ¬ (State.reset.hart.launch.admits .fetch .word State.reset.hart.pc.toNat = true ∧
        State.reset.hart.pc.toNat ∈ State.reset.hart.launch.text)) ∧
    (let h := hart .rv32 launch 0x1002 [] []
     h.launch.admits .fetch .word h.pc.toNat = true ∧ h.pc.toNat ∉ h.launch.text) ∧
    (let h := hart .rv32 { resetLaunch with text := [0xFFFFFFFE] } 0xFFFFFFFE [] []
     h.launch.endPc ≠ some h.pc.toNat ∧ h.launch.admits .fetch .word h.pc.toNat = true ∧ h.pc.toNat ∈ h.launch.text ∧
     2 ^ 32 < h.pc.toNat + 4) ∧
    (let h := hart .rv32 { resetLaunch with text := [0xFFFFFFFC] } 0xFFFFFFFC [] []
     h.launch.endPc ≠ some h.pc.toNat ∧ h.launch.admits .fetch .word h.pc.toNat = true ∧ h.pc.toNat ∈ h.launch.text ∧
     h.pc.toNat + 4 ≤ 2 ^ 32 ∧ 3 < 4 ∧ h.mem.read (h.pc.toNat + 3) = none) ∧
    ((fetching .rv32 launch 0x1000 [] [] 0x0000352B#32).Fetches 0x0000352B#32 ∧
      decode .rv32 .legal .published 0x0000352B#32 = .illegal .rv64Only) ∧
    ((fetching .rv32 launch 0x1000 [] [] 0x00000013#32).Fetches 0x00000013#32 ∧
      decode .rv32 .legal .published 0x00000013#32 = .unknown .majorOpcode) ∧
    (unadmitted.Fetches 0x0E7302DB#32 ∧
      decode .rv32 .legal .published 0x0E7302DB#32 = .instr (.leaD 5 6 7) ∧
      unadmitted.launch.admitTier.admits (Instr.leaD 5 6 7).tier = false) := by decide

theorem witness_StepAtEndPcKeepsTheEndState :
    (hart .rv32 { launch with endPc := some 0x1008 } 0x1008 [] []).launch.endPc =
      some (hart .rv32 { launch with endPc := some 0x1008 } 0x1008 [] []).pc.toNat := by decide

theorem witness_FaultsReportThePcOfTheStep : ∃ f, step State.reset = .fault f :=
  ⟨.instructionAccessFault 0 0, rfl⟩

theorem exists_fault {i : Instr} {x : XLen} {h : Hart x} {f : Fault} (e : faultOf i h = some f) :
    exec i ⟨x, h⟩ = .fault f := by
  unfold faultOf at e
  cases hx : exec i ⟨x, h⟩ <;> rw [hx] at e <;> first | (cases e; rfl) | cases e

theorem witness_EachInstructionRaisesOnlyItsFaults :
    exec (.leaWZe 5 6 7) ⟨.rv32, leaHart .rv32 0 0⟩ = .fault (.illegalInstruction 0x1000 0x147302DB) ∧
    exec (.sbgp 11 0#18) ⟨.rv32, storeHart .rv32 0x20000000 11 1⟩ = .fault (.storeAccessFault 0x1000 0x20000000) :=
  ⟨exists_fault test_leaWZe_on_rv32, exists_fault test_sbgp_not_admitted⟩

theorem witness_IllFormedInstructionsRaiseIllegal :
    ¬ (Instr.sdgp 12 1#17).WellFormed .rv32 .legal ∧ ¬ (Instr.bbc 10 32 4#10).WellFormed .rv32 .legal ∧
    ¬ (Instr.bfoz 6 7 63 0).WellFormed .rv32 .legal ∧ ¬ (Instr.lwugp 13 1#17).WellFormed .rv32 .illegal := by decide

theorem witness_OnlyTheDestinationRegisterChanges :
    (∃ h' : Hart .rv32, exec (.addigp 3 8#18) ⟨.rv32, gpHart .rv32 0x10000000⟩ = .next ⟨.rv32, h'⟩) ∧
    (Instr.addigp 3 8#18).dest ≠ some 4 := ⟨exists_hart (by decide), by decide⟩

/-- Both clauses: a load, and a store with the addresses next to its bytes. -/
theorem witness_OnlyStoresChangeMemory :
    ((∃ h' : Hart .rv64, exec (.lwgp 11 1#17) ⟨.rv64, demo⟩ = .next ⟨.rv64, h'⟩) ∧
      (Instr.lwgp 11 1#17).accessKind ≠ some .store) ∧
    ((∃ h' : Hart .rv64, exec (.sbgp 11 2#18) ⟨.rv64, demoStore⟩ = .next ⟨.rv64, h'⟩) ∧
      (Instr.sbgp 11 2#18).access demoStore.launch.uloadOffsetExt = some (.store, .byte, 2) ∧
      0x10000001 < (demoStore.dataAddress 2).toNat ∧ (demoStore.dataAddress 2).toNat + 1 ≤ 0x10000003) :=
  ⟨⟨exists_hart (by decide), by decide⟩, exists_hart (by decide), by decide, by decide, by decide⟩

theorem witness_OnlyBranchesAssignThePc :
    ((∃ h' : Hart .rv64, exec (.lwgp 11 1#17) ⟨.rv64, demo⟩ = .next ⟨.rv64, h'⟩) ∧
      (Instr.lwgp 11 1#17).branchField = none) ∧
    ((∃ h' : Hart .rv32, exec (.bnec 5 10#7 0x3FC#10) ⟨.rv32, regHart .rv32 0x108 5 4⟩ = .next ⟨.rv32, h'⟩) ∧
      (Instr.bnec 5 10#7 0x3FC#10).branchField = some 0x3FC#10) :=
  ⟨⟨exists_hart (by decide), by decide⟩, exists_hart (by decide), by decide⟩

/-- Two harts that differ in a register the instruction does not read; both clauses. -/
theorem witness_InstructionsReadOnlyTheirSources :
    (demo.pc = (demo.writeReg 7 1).pc ∧ demo.mem = (demo.writeReg 7 1).mem ∧
      demo.launch = (demo.writeReg 7 1).launch ∧
      (∀ r ∈ (Instr.lwgp 11 1#17).sources, demo.readReg r = (demo.writeReg 7 1).readReg r) ∧
      demo.readReg 7 ≠ (demo.writeReg 7 1).readReg 7) ∧
    (∃ f, exec (.lwgp 11 5#17) ⟨.rv64, demo⟩ = .fault f) ∧
    (∃ h' : Hart .rv64, exec (.lwgp 11 1#17) ⟨.rv64, demo⟩ = .next ⟨.rv64, h'⟩) :=
  ⟨by decide, ⟨.loadAccessFault 0x1000 0x10000014, exists_fault (by decide)⟩, exists_hart (by decide)⟩

theorem witness_RegisterInstructionsIgnoreMemory :
    (Instr.bbc 10 33 0x1FF#10).accessKind = none ∧
    exec (.bbc 10 33 0x1FF#10) ⟨.rv64, regHart32 .rv64 0x1000 10 0x80000001F2345678⟩ =
      .fault (.instructionAddressMisaligned 0x1000 0x13FE) ∧
    (∃ h' : Hart .rv64, exec (.bbc 10 33 0x1FF#10) ⟨.rv64, regHart .rv64 0x1000 10 0x80000001F2345678⟩ =
      .next ⟨.rv64, h'⟩) :=
  ⟨by decide, exists_fault test_bbc_misaligned_target, exists_hart (by decide)⟩

/-- Each of the seven loads completes into a register other than `x0`; LWUGP and LDGP with their conditions; a fault too. -/
theorem witness_LoadsToX0StillAccessMemory :
    (∃ h' : Hart .rv64, exec (.lbgp 11 3#18) ⟨.rv64, gpHart .rv64 0x10000000⟩ = .next ⟨.rv64, h'⟩) ∧
    (∃ h' : Hart .rv64, exec (.lbugp 11 3#18) ⟨.rv64, gpHart .rv64 0x10000000⟩ = .next ⟨.rv64, h'⟩) ∧
    (∃ h' : Hart .rv64, exec (.lhgp 11 1#17) ⟨.rv64, gpHart .rv64 0x10000000⟩ = .next ⟨.rv64, h'⟩) ∧
    (∃ h' : Hart .rv64, exec (.lhugp 11 1#17) ⟨.rv64, gpHart .rv64 0x10000000⟩ = .next ⟨.rv64, h'⟩) ∧
    (∃ h' : Hart .rv64, exec (.lwgp 11 1#17) ⟨.rv64, gpHart .rv64 0x10000000⟩ = .next ⟨.rv64, h'⟩) ∧
    ((gpHart .rv32 0x10000000).launch.lwugpOnRv32 = .legal ∧
      ∃ h' : Hart .rv32, exec (.lwugp 11 1#17) ⟨.rv32, gpHart .rv32 0x10000000⟩ = .next ⟨.rv32, h'⟩) ∧
    (∃ h' : Hart .rv64, exec (.ldgp 11 1#17) ⟨.rv64, gpHart .rv64 0x10000000⟩ = .next ⟨.rv64, h'⟩) ∧
    exec (.lbgp 0 16#18) ⟨.rv32, gpHart .rv32 0x10000000⟩ = .fault (.loadAccessFault 0x1000 0x10000010) :=
  ⟨exists_hart (by decide), exists_hart (by decide), exists_hart (by decide), exists_hart (by decide),
    exists_hart (by decide), ⟨by decide, exists_hart (by decide)⟩, exists_hart (by decide),
    exists_fault test_lbgp_x0_still_accesses⟩

theorem witness_AddigpAddsToGp :
    (0xFFFFD50B#32).extractLsb' 0 7 = 0b0001011#7 ∧ (0xFFFFD50B#32).extractLsb' 12 2 = 0b01#2 := by decide

theorem witness_LeaHalfAndWordAddTheScaledIndex :
    ((0x0A6282DB#32).extractLsb' 0 7 = 0b1011011#7 ∧ (0x0A6282DB#32).extractLsb' 12 3 = 0b000#3 ∧
      (0x0A6282DB#32).extractLsb' 25 7 = 0b0000101#7) ∧
    ((0x0CB5065B#32).extractLsb' 0 7 = 0b1011011#7 ∧ (0x0CB5065B#32).extractLsb' 12 3 = 0b000#3 ∧
      (0x0CB5065B#32).extractLsb' 25 7 = 0b0000110#7) := by decide

/-- The highest position of each width. -/
theorem witness_BitFieldOperationsWriteTheFieldAndTheFill :
    (31 : Fin 64).val < XLen.bits .rv32 ∧ (63 : Fin 64).val < XLen.bits .rv64 ∧ (0 : Fin 64).val < XLen.bits .rv32 := by
  decide

theorem witness_BitFieldCornerCases :
    31 < XLen.bits .rv32 ∧ 63 < XLen.bits .rv64 ∧ (0 < 30 ∧ 30 < XLen.bits .rv32 - 1) ∧
    (0 < 1 ∧ 1 < XLen.bits .rv64 - 1) := by decide

theorem witness_BitFieldWidthsAgree : 31 < 32 ∧ 0 < 32 := by decide

/-- The premises of the four branches, taken and not taken, at the ends of the position range. -/
theorem witness_BranchesJumpWhenTheirConditionHolds :
    (let h := regHart .rv64 0x1000 10 0x80000001F2345678
     (33 : Fin 64).val < XLen.bits .rv64 ∧ (63 : Fin 64).val < XLen.bits .rv64 ∧
     (h.readReg 10).getLsbD 33 = false ∧ (h.readReg 10).getLsbD 63 = true ∧
     (h.pc + (0x1FF#10 ++ 0#1 : BitVec 11).signExtend 64).toNat % h.launch.ialign.bytes = 0) ∧
    (let h := regHart .rv32 0x1400 9 0x7F
     (h.readReg 9).toNat = (127#7).toNat ∧ (h.readReg 9).toNat ≠ (0#7).toNat ∧
     (h.pc + (0x200#10 ++ 0#1 : BitVec 11).signExtend 32).toNat % h.launch.ialign.bytes = 0) := by decide

theorem witness_TakenBranchToMisalignedTargetFaults :
    (let h := regHart32 .rv64 0x1000 10 0x80000001F2345678
     (h.pc + (0x1FF#10 ++ 0#1 : BitVec 11).signExtend 64).toNat % h.launch.ialign.bytes ≠ 0 ∧
     (h.readReg 10).getLsbD 33 = false ∧ (h.readReg 10).getLsbD 63 = true) ∧
    (let h := regHart32 .rv32 0x1000 9 0x20
     (h.pc + (1#10 ++ 0#1 : BitVec 11).signExtend 32).toNat % h.launch.ialign.bytes ≠ 0 ∧
     (h.readReg 9).toNat = (32#7).toNat ∧ (h.readReg 9).toNat ≠ (33#7).toNat) := by decide

theorem witness_NoMisalignedTargetUnderIalign16 :
    let h := regHart .rv32 0x1002 9 0x20
    h.launch.ialign = .bits16 ∧ h.pc.toNat % 2 = 0 ∧ (Instr.bbs 9 31 1#10).branchField ≠ none ∧
    (Instr.bbs 9 31 1#10).WellFormed .rv32 h.launch.lwugpOnRv32 := by decide

theorem witness_ComplementaryBranches :
    let h := regHart32 .rv64 0x1000 9 0x20
    (h.pc + (0x200#10 ++ 0#1 : BitVec 11).signExtend 64).toNat % h.launch.ialign.bytes = 0 ∧
    (63 : Fin 64).val < XLen.bits .rv64 := by decide

theorem witness_BranchesOnX0 :
    let h := regHart32 .rv32 0x1000 9 0x20
    (h.pc + (2#10 ++ 0#1 : BitVec 11).signExtend 32).toNat % h.launch.ialign.bytes = 0 ∧
    (31 : Fin 64).val < XLen.bits .rv32 := by decide

/-- Each branch with offset 0 and its condition met: BBC x10, 63 and BBS x10, 0 at the ends of the position range, BEQC x0,
0 and BNEC x10, 127. -/
theorem witness_TakenSelfBranchRepeats :
    (let h := fetching .rv64 launch 0x1000 [(10, 1)] [] 0x01F570DB#32
     h.Fetches 0x01F570DB#32 ∧ h.pc.toNat % h.launch.ialign.bytes = 0 ∧
     decode .rv64 h.launch.lwugpOnRv32 h.launch.codes 0x01F570DB#32 = .instr (.bbc 10 63 0) ∧
     (h.readReg 10).getLsbD 63 = false) ∧
    (let h := fetching .rv64 launch 0x1000 [(10, 1)] [] 0x4005705B#32
     h.Fetches 0x4005705B#32 ∧
     decode .rv64 h.launch.lwugpOnRv32 h.launch.codes 0x4005705B#32 = .instr (.bbs 10 0 0) ∧
     (h.readReg 10).getLsbD 0 = true) ∧
    (let h := fetching .rv32 launch 0x1000 [] [] 0x0000505B#32
     h.Fetches 0x0000505B#32 ∧
     decode .rv32 h.launch.lwugpOnRv32 h.launch.codes 0x0000505B#32 = .instr (.beqc 0 0 0) ∧
     (h.readReg 0).toNat = (0#7).toNat) ∧
    (let h := fetching .rv32 launch 0x1000 [(10, 1)] [] 0x41F560DB#32
     h.Fetches 0x41F560DB#32 ∧
     decode .rv32 h.launch.lwugpOnRv32 h.launch.codes 0x41F560DB#32 = .instr (.bnec 10 127#7 0) ∧
     (h.readReg 10).toNat ≠ (127#7).toNat) := by
  refine ⟨?_, ?_, ?_, ?_⟩ <;> decide

theorem witness_BranchWordsEncodeTheirTarget :
    decode .rv32 launch.lwugpOnRv32 launch.codes 0xBEA2EC5B#32 = .instr (.bnec 5 10#7 0x3FC#10) ∧
    (Instr.bnec 5 10#7 0x3FC#10).branchField ≠ none ∧
    ∃ h' : Hart .rv32, exec (.bnec 5 10#7 0x3FC#10) ⟨.rv32, regHart .rv32 0x108 5 4⟩ = .next ⟨.rv32, h'⟩ :=
  ⟨by decide, by decide, exists_hart (by decide)⟩

theorem witness_EveryAccessIsAtGpPlusOffset :
    ((Instr.ldgp 11 1#17).access (gpHart .rv64 0x10000000).launch.uloadOffsetExt = some (.load, .double, 8) ∧
      (∃ h' : Hart .rv64, exec (.ldgp 11 1#17) ⟨.rv64, gpHart .rv64 0x10000000⟩ = .next ⟨.rv64, h'⟩) ∧
      (Instr.ldgp 11 1#17).dest = some 11 ∧ (11 : Reg) ≠ 0) ∧
    ((Instr.sdgp 14 1#17).access (storeHart .rv64 0x10000000 14 5).launch.uloadOffsetExt = some (.store, .double, 8) ∧
      (∃ h' : Hart .rv64, exec (.sdgp 14 1#17) ⟨.rv64, storeHart .rv64 0x10000000 14 5⟩ = .next ⟨.rv64, h'⟩) ∧
      (Instr.sdgp 14 1#17).sources = [3, 14] ∧ (Instr.sdgp 14 1#17).dest ≠ some 3) :=
  ⟨⟨by decide, exists_hart (by decide), by decide, by decide⟩, by decide, exists_hart (by decide), by decide, by decide⟩

/-- Each clause, at the last address that is admitted for its size (and a misaligned one, split). -/
theorem witness_SignedLoadsWriteTheExtendedValue :
    (let h := gpHart .rv32 0x10000000
     (h.Accessible .load .byte (h.gpAddress (sext .rv32 15#18)).toNat ∧
       h.Holds .byte (h.gpAddress (sext .rv32 15#18)).toNat 0#8) ∧
     (h.Accessible .load .half (h.gpAddress (sext .rv32 (immH 7#17))).toNat ∧
       h.Holds .half (h.gpAddress (sext .rv32 (immH 7#17))).toNat 0#16) ∧
     (h.Accessible .load .word (h.gpAddress (sext .rv32 (immW 2#17))).toNat ∧
       h.Holds .word (h.gpAddress (sext .rv32 (immW 2#17))).toNat 0xFFFF7F80#32)) ∧
    (let h := splitHart 0x10000002
     h.Accessible .load .word (h.gpAddress (sext .rv32 (immW 0#17))).toNat ∧
       h.Holds .word (h.gpAddress (sext .rv32 (immW 0#17))).toNat 0x0001F234#32) := by decide

theorem witness_UnsignedLoadsWriteTheExtendedValue :
    let h := gpHart .rv64 0x10000000
    let off {n : Nat} (imm : BitVec n) : Word .rv64 := unsignedOffset .rv64 h.launch.uloadOffsetExt imm
    (h.Accessible .load .byte (h.gpAddress (off 3#18)).toNat ∧ h.Holds .byte (h.gpAddress (off 3#18)).toNat 0xF2#8) ∧
    (h.Accessible .load .half (h.gpAddress (off (immH 1#17))).toNat ∧
      h.Holds .half (h.gpAddress (off (immH 1#17))).toNat 0xF234#16) ∧
    ((XLen.rv64 = .rv64 ∨ h.launch.lwugpOnRv32 = .legal) ∧
      h.Accessible .load .word (h.gpAddress (off (immW 1#17))).toNat ∧
      h.Holds .word (h.gpAddress (off (immW 1#17))).toNat 0x80000001#32) := by decide

theorem witness_LdgpLoadsADoubleWord :
    let h := gpHart .rv64 0x10000000
    h.Accessible .load .double (h.gpAddress (sext .rv64 (immD 1#17))).toNat ∧
    h.Holds .double (h.gpAddress (sext .rv64 (immD 1#17))).toNat 0x00000000FFFF7F80#64 := by decide

theorem witness_StoresWriteTheLowBits :
    let h := storeHart .rv64 0x10000000 14 0x1122334455667788
    (h.Accessible .store .byte (h.gpAddress (sext .rv64 15#18)).toNat ∧
      h.OutsideText (h.gpAddress (sext .rv64 15#18)).toNat 1) ∧
    (h.Accessible .store .half (h.gpAddress (sext .rv64 (immH 7#17))).toNat ∧
      h.OutsideText (h.gpAddress (sext .rv64 (immH 7#17))).toNat 2) ∧
    (h.Accessible .store .word (h.gpAddress (sext .rv64 (immW 3#17))).toNat ∧
      h.OutsideText (h.gpAddress (sext .rv64 (immW 3#17))).toNat 4) ∧
    (h.Accessible .store .double (h.gpAddress (sext .rv64 (immD 1#17))).toNat ∧
      h.OutsideText (h.gpAddress (sext .rv64 (immD 1#17))).toNat 8) := by decide

theorem witness_StoresLeaveOtherBytesAlone :
    let h := storeHart .rv64 0x10000000 14 0x1122334455667788
    (∃ h' : Hart .rv64, exec (.sbgp 14 15#18) ⟨.rv64, h⟩ = .next ⟨.rv64, h'⟩) ∧
    (∃ h' : Hart .rv64, exec (.shgp 14 7#17) ⟨.rv64, h⟩ = .next ⟨.rv64, h'⟩) ∧
    (∃ h' : Hart .rv64, exec (.swgp 14 3#17) ⟨.rv64, h⟩ = .next ⟨.rv64, h'⟩) ∧
    (∃ h' : Hart .rv64, exec (.sdgp 14 1#17) ⟨.rv64, h⟩ = .next ⟨.rv64, h'⟩) :=
  ⟨exists_hart (by decide), exists_hart (by decide), exists_hart (by decide), exists_hart (by decide)⟩

/-- A store that goes on, and the load of the same width and offset accessible after it, for each width. -/
theorem witness_LoadAfterStoreGivesTheStoredValue :
    let h := storeHart .rv64 0x10000000 14 0x1122334455667788
    (∃ g : Hart .rv64, exec (.sbgp 14 15#18) ⟨.rv64, h⟩ = .next ⟨.rv64, g⟩ ∧
      g.Accessible .load .byte (g.gpAddress (sext .rv64 15#18)).toNat) ∧
    (∃ g : Hart .rv64, exec (.shgp 14 7#17) ⟨.rv64, h⟩ = .next ⟨.rv64, g⟩ ∧
      g.Accessible .load .half (g.gpAddress (sext .rv64 (immH 7#17))).toNat) ∧
    (∃ g : Hart .rv64, exec (.swgp 14 2#17) ⟨.rv64, h⟩ = .next ⟨.rv64, g⟩ ∧
      g.Accessible .load .word (g.gpAddress (sext .rv64 (immW 2#17))).toNat) ∧
    (∃ g : Hart .rv64, exec (.sdgp 14 1#17) ⟨.rv64, h⟩ = .next ⟨.rv64, g⟩ ∧
      g.Accessible .load .double (g.gpAddress (sext .rv64 (immD 1#17))).toNat) := by
  refine ⟨?_, ?_, ?_, ?_⟩ <;> exact ⟨_, rfl, by decide⟩

/-- Each clause for a load and for a store: an access that wraps, a misaligned one, one that is not admitted whole, and one of
which a byte is not admitted. -/
theorem witness_AccessesThatFailTheChecksStop :
    ((Instr.lwgp 11 0#17).access .ze = some (.load, .word, 0) ∧ (Instr.swgp 11 0#17).access .ze = some (.store, .word, 0) ∧
      (Instr.lwgp 11 0#17).WellFormed .rv32 .legal ∧ (Instr.swgp 11 0#17).WellFormed .rv32 .legal) ∧
    2 ^ 32 < ((gpHart .rv32 0xFFFFFFFD).dataAddress 0).toNat + 4 ∧
    (((gpHart .rv32 0x10000002).dataAddress 0).toNat + 4 ≤ 2 ^ 32 ∧
      ((gpHart .rv32 0x10000002).dataAddress 0).toNat % 4 ≠ 0 ∧
      (gpHart .rv32 0x10000002).launch.misaligned = .fault) ∧
    (((gpHart .rv32 0x20000000).dataAddress 0).toNat % 4 = 0 ∧
      (gpHart .rv32 0x20000000).launch.admits .load .word ((gpHart .rv32 0x20000000).dataAddress 0).toNat = false ∧
      (gpHart .rv32 0x20000000).launch.admits .store .word ((gpHart .rv32 0x20000000).dataAddress 0).toNat = false) ∧
    (((splitHart 0x1000000D).dataAddress 0).toNat % 4 ≠ 0 ∧ (splitHart 0x1000000D).launch.misaligned = .split ∧
      3 < 4 ∧ (splitHart 0x1000000D).launch.admits .load .byte (((splitHart 0x1000000D).dataAddress 0).toNat + 3) = false ∧
      (splitHart 0x1000000D).launch.admits .store .byte (((splitHart 0x1000000D).dataAddress 0).toNat + 3) = false) := by
  decide

theorem witness_LoadsOfValuelessBytesAreRefused :
    let h := hart .rv32 launch 0x1000 [(3, 0x10000000)] [(0x10000004, 1#8), (0x10000005, 1#8), (0x10000006, 1#8)]
    (Instr.lwgp 11 1#17).access h.launch.uloadOffsetExt = some (.load, .word, 4) ∧
    (Instr.lwgp 11 1#17).WellFormed .rv32 h.launch.lwugpOnRv32 ∧ h.Accessible .load .word (h.dataAddress 4).toNat ∧
    3 < 4 ∧ h.mem.read ((h.dataAddress 4).toNat + 3) = none := by decide

theorem witness_StoresToProgramTextAreRefused :
    let h := hart .rv32 { launch with text := [0x10000000] } 0x1000 [(3, 0x10000000)] []
    (Instr.sbgp 11 3#18).access h.launch.uloadOffsetExt = some (.store, .byte, 3) ∧
    (Instr.sbgp 11 3#18).WellFormed .rv32 h.launch.lwugpOnRv32 ∧ h.Accessible .store .byte (h.dataAddress 3).toNat ∧
    0x10000000 ∈ h.launch.text ∧ 0x10000000 < (h.dataAddress 3).toNat + 1 ∧ (h.dataAddress 3).toNat < 0x10000000 + 4 := by
  decide

theorem witness_DecodeOfEncodeIsTheInstruction :
    Codes.published.Distinct ∧ (Instr.bfos 6 7 31 31).WellFormed .rv32 .illegal ∧
    (Instr.lwugp 13 1#17).WellFormed .rv32 .legal ∧ (Instr.ldgp 31 0x1FFFF#17).WellFormed .rv64 .illegal := by decide

/-- The published codes are not the only distinct ones. -/
theorem test_other_codes_are_distinct :
    ({ Codes.published with f2Lbgp := 0b11#2, f2Sbgp := 0b00#2 } : Codes).Distinct := by decide

theorem witness_EncodeOfDecodeIsTheWord :
    decode .rv32 .legal .published 0xBEA2EC5B#32 = .instr (.bnec 5 10#7 0x3FC#10) := by decide

theorem witness_DecodingYieldsWellFormedInstructions :
    decode .rv32 .legal .published 0x7C03B35B#32 = .instr (.bfos 6 7 31 0) := by decide

/-- A word for each clause; the positions are the highest of RV32. -/
theorem witness_DecodeReadsTheWellFormedFormats :
    ((0x00C5D45B#32).extractLsb' 0 7 = 0b1011011#7 ∧
      (0xBEA2EC5B#32).extractLsb' 0 7 = 0b1011011#7 ∧
      (0x7C03A35B#32).extractLsb' 0 7 = 0b1011011#7 ∧
      (0x7DF3B35B#32).extractLsb' 0 7 = 0b1011011#7 ∧
      (0xBFF2FE5B#32).extractLsb' 0 7 = 0b1011011#7 ∧
      (0xFFF2FE5B#32).extractLsb' 0 7 = 0b1011011#7) ∧
    (0x00C5D45B#32).extractLsb' 12 3 = 0b101#3 ∧ (0xBEA2EC5B#32).extractLsb' 12 3 = 0b110#3 ∧
    ((0x7C03A35B#32).extractLsb' 12 3 = 0b010#3 ∧ (0x7C03A35B#32).getLsbD 31 = false ∧
      (0x7C03A35B#32).getLsbD 25 = false) ∧
    ((0x7DF3B35B#32).extractLsb' 12 3 = 0b011#3 ∧ (0x7DF3B35B#32).getLsbD 31 = false ∧
      (0x7DF3B35B#32).getLsbD 25 = false) ∧
    ((0xBFF2FE5B#32).extractLsb' 12 3 = 0b111#3 ∧ (0xBFF2FE5B#32).getLsbD 30 = false ∧
      (0xBFF2FE5B#32).getLsbD 7 = false) ∧
    ((0xFFF2FE5B#32).extractLsb' 12 3 = 0b111#3 ∧ (0xFFF2FE5B#32).getLsbD 30 = true ∧
      (0xFFF2FE5B#32).getLsbD 7 = false) ∧
    ((0x00E0742B#32).extractLsb' 0 7 = 0b0101011#7 ∧ (0x00E0742B#32).extractLsb' 12 3 = 0b111#3) := by
  refine ⟨?_, ?_, ?_, ?_, ?_, ?_, ?_, ?_⟩ <;> decide

/-- A word for each function code, its other bits as in section 3 of the test vectors. -/
theorem witness_DecodeReadsTheRecoveredFormats :
    Codes.published.Distinct ∧
    (([0x8000458B#32, 0x0040658B#32, 0xFEFFFF8B#32].map fun w => (w.extractLsb' 0 7, w.extractLsb' 12 2)) =
      [(0b0001011#7, Codes.published.f2Lbgp), (0b0001011#7, Codes.published.f2Lbugp),
        (0b0001011#7, Codes.published.f2Sbgp)]) ∧
    (([0x006016AB#32, 0x0200552B#32, 0x001026AB#32, 0x800066AB#32, 0x8000372B#32, 0x00C0042B#32, 0x00F0412B#32].map
        fun w => (w.extractLsb' 0 7, w.extractLsb' 12 3)) =
      [(0b0101011#7, Codes.published.f3Lhgp), (0b0101011#7, Codes.published.f3Lhugp), (0b0101011#7, 0b010#3),
        (0b0101011#7, Codes.published.f3Lwugp), (0b0101011#7, Codes.published.f3Ldgp),
        (0b0101011#7, Codes.published.f3Shgp), (0b0101011#7, Codes.published.f3Swgp)]) ∧
    (([0x0E7302DB#32, 0x107302DB#32, 0x127302DB#32, 0x147302DB#32, 0x167302DB#32].map
        fun w => (w.extractLsb' 0 7, w.extractLsb' 12 3, w.extractLsb' 25 7)) =
      [(0b1011011#7, 0b000#3, Codes.published.f7LeaD), (0b1011011#7, 0b000#3, Codes.published.f7LeaBZe),
        (0b1011011#7, 0b000#3, Codes.published.f7LeaHZe), (0b1011011#7, 0b000#3, Codes.published.f7LeaWZe),
        (0b1011011#7, 0b000#3, Codes.published.f7LeaDZe)]) := by
  refine ⟨?_, ?_, ?_, ?_⟩ <;> decide

theorem witness_Rv32ZeroBitsMustBeZero :
    ((0x8003A35B#32).extractLsb' 0 7 = 0b1011011#7 ∧ (0x8003A35B#32).extractLsb' 12 3 = 0b010#3 ∧
      (0x8003A35B#32).getLsbD 31 = true) ∧
    ((0x0203B35B#32).extractLsb' 12 3 = 0b011#3 ∧ (0x0203B35B#32).getLsbD 25 = true) ∧
    ((0x000574DB#32).extractLsb' 12 3 = 0b111#3 ∧ (0x000574DB#32).getLsbD 7 = true) := by decide

theorem witness_Rv64OnlyWordsAreIllegalOnRv32 :
    Codes.published.Distinct ∧ (Instr.ldgp 10 0#17).rv64Only = true ∧ (Instr.sdgp 12 1#17).rv64Only = true ∧
    (Instr.leaBZe 5 6 7).rv64Only = true ∧ (Instr.leaDZe 5 6 7).rv64Only = true := by decide

/-- At the highest pc whose word does not wrap; at reset, whose `ADMIT_TIER` does not admit the tier of LEA.d. -/
theorem witness_PlacedWordRunsNext :
    (let s : State := ⟨.rv32, hart .rv32 launch 0xFFFFFFFC [(3, 0x10000000)] table⟩
     s.hart.pc.toNat + 4 ≤ 2 ^ s.xlen.bits ∧
     decode s.xlen s.hart.launch.lwugpOnRv32 s.hart.launch.codes (BitVec.ofNat 32 0x004025AB) =
       .instr (.lwgp 11 1#17)) ∧
    (decode .rv64 State.reset.hart.launch.lwugpOnRv32 State.reset.hart.launch.codes (BitVec.ofNat 32 0x0E7302DB) =
       .instr (.leaD 5 6 7) ∧
     State.reset.hart.launch.admitTier.admits (Instr.leaD 5 6 7).tier = false) := by decide

/-- From reset, a placed ADDIGP x10, -1 runs as the first instruction (`x3` is zero at reset). -/
theorem test_placed_word_runs_from_reset :
    (match step (State.reset.withFetchWord 32 0xFFFFD50B) with
     | .next s => ((s.hart.readReg 10).toNat, s.hart.pc.toNat)
     | _ => (0, 0)) = (0xFFFFFFFFFFFFFFFF, 4) := by decide

/-- A placed Tier G word (LEA.d x5, x6, x7) runs from reset too: the load admits its tier. -/
theorem test_placed_tier_g_word_runs_from_reset : isNext (step (State.reset.withFetchWord 32 0x0E7302DB)) = true := by
  decide

end Sys2Proof.Tests
end

/-! # Proofs for the scope family: what a step keeps, the placed word, registers, reset parameters -/

namespace Sys2Proof.Machine

variable {x : XLen} {h h' : Hart x} {i : Instr} {insn : BitVec 32}

/-! ## What each shape of a next state keeps -/

theorem WritesRegister.launch_eq (w : WritesRegister h i h') : h'.launch = h.launch := by
  obtain ⟨rd, v, -, -, -, rfl⟩ := w
  simp

theorem WritesRegister.mem_eq (w : WritesRegister h i h') : h'.mem = h.mem := by
  obtain ⟨rd, v, -, -, -, rfl⟩ := w
  simp

theorem Jumps.launch_eq (j : Jumps h i h') : h'.launch = h.launch := by
  obtain ⟨imm, t, -, -, -, rfl, -⟩ := j
  rfl

theorem Jumps.mem_eq (j : Jumps h i h') : h'.mem = h.mem := by
  obtain ⟨imm, t, -, -, -, rfl, -⟩ := j
  rfl

theorem Stores.launch_eq (st : Stores h i h') : h'.launch = h.launch := by
  obtain ⟨size, off, v, -, -, -, -, -, rfl⟩ := st
  rfl

/-- A completed store lies outside the program text, so it leaves each byte of each word of the text as it was (rule
R56). -/
theorem Stores.read_text (st : Stores h i h') {t k : Nat} (ht : t ∈ h.launch.text) (hk : k < 4) :
    h'.mem.read (t + k) = h.mem.read (t + k) := by
  obtain ⟨size, off, v, -, -, -, -, outside, rfl⟩ := st
  have apart := outside t ht
  exact storedMem_outside v (by omega)

/-! ## What one instruction and one step keep -/

/-- `h'` has the launch parameters of `h` and the same byte at each address of its program text. -/
def KeepsText (h h' : Hart x) : Prop :=
  h'.launch = h.launch ∧ ∀ t ∈ h.launch.text, ∀ k : Nat, k < 4 → h'.mem.read (t + k) = h.mem.read (t + k)

theorem KeepsText.refl (h : Hart x) : KeepsText h h := ⟨rfl, fun _ _ _ _ => rfl⟩

theorem KeepsText.of_launch_mem (hl : h'.launch = h.launch) (hm : h'.mem = h.mem) : KeepsText h h' :=
  ⟨hl, fun _ _ _ _ => by rw [hm]⟩

theorem exec_keepsText {s' : State} (e : exec i ⟨x, h⟩ = .next s') :
    ∃ h' : Hart x, s' = ⟨x, h'⟩ ∧ KeepsText h h' := by
  obtain ⟨h', rfl, shape⟩ := exec_shape e
  refine ⟨h', rfl, ?_⟩
  rcases shape with w | j | st
  · exact .of_launch_mem w.launch_eq w.mem_eq
  · exact .of_launch_mem j.launch_eq j.mem_eq
  · exact ⟨st.launch_eq, fun _ ht _ hk => st.read_text ht hk⟩

/-- A step that completes is the end state again, or the instruction that was fetched, decoded and admitted (rules R183,
R216). -/
theorem step_eq_next_cases {s' : State} (e : step ⟨x, h⟩ = .next s') :
    (h.launch.endPc = some h.pc.toNat ∧ s' = ⟨x, h⟩) ∨
    (h.launch.endPc ≠ some h.pc.toNat ∧ ∃ insn i,
      h.fetch = .next insn ∧ h.decodeAdmitted insn = .next i ∧ exec i ⟨x, h⟩ = .next s') := by
  by_cases ended : h.launch.endPc = some h.pc.toNat
  · have stays : step ⟨x, h⟩ = .next ⟨x, h⟩ := if_pos (by simp [Hart.atEnd, ended])
    rw [stays] at e
    injection e with e
    exact .inl ⟨ended, e.symm⟩
  · rw [step_of_not_ended ended] at e
    obtain ⟨insn, hf, e⟩ := andThen_eq_next.mp e
    obtain ⟨i, hd, e⟩ := andThen_eq_next.mp e
    exact .inr ⟨ended, insn, i, hf, hd, e⟩

theorem step_keepsText {s' : State} (e : step ⟨x, h⟩ = .next s') :
    ∃ h' : Hart x, s' = ⟨x, h'⟩ ∧ KeepsText h h' := by
  rcases step_eq_next_cases e with ⟨-, rfl⟩ | ⟨-, insn, i, -, -, run⟩
  · exact ⟨h, rfl, .refl h⟩
  · exact exec_keepsText run

/-! ## The step of a fetched and admitted instruction -/

theorem Hart.decodeAdmitted_of_admits
    (hd : decode x h.launch.lwugpOnRv32 h.launch.codes insn = .instr i)
    (ht : h.launch.admitTier.admits i.tier = true) : h.decodeAdmitted insn = .next i := by
  simp [Hart.decodeAdmitted, hd, ht]

/-- The step at a word that can be fetched, decodes to `i` and is admitted is `exec i` (rule R183). -/
theorem step_of_fetches (hf : h.Fetches insn) (hd : decode x h.launch.lwugpOnRv32 h.launch.codes insn = .instr i)
    (ht : h.launch.admitTier.admits i.tier = true) : step ⟨x, h⟩ = exec i ⟨x, h⟩ := by
  rw [step_of_not_ended hf.1, Hart.fetch_of_fetches hf, andThen_next, Hart.decodeAdmitted_of_admits hd ht, andThen_next]

/-! ## The launch parameters of a placed word -/

@[simp] theorem Hart.placeWord_codes : (h.placeWord insn).launch.codes = h.launch.codes := by
  simp [Hart.placeWord]

@[simp] theorem Hart.placeWord_lwugp : (h.placeWord insn).launch.lwugpOnRv32 = h.launch.lwugpOnRv32 := by
  simp [Hart.placeWord]

/-- The placing admits the tier of the instruction it places (rule R3). -/
theorem Hart.placeWord_admits (hd : decode x h.launch.lwugpOnRv32 h.launch.codes insn = .instr i) :
    (h.placeWord insn).launch.admitTier.admits i.tier = true := by
  simp [Hart.placeWord, hd]

/-- The host's 32-bit row is the word itself: `BitVec.ofNat 32` already drops the bits above. -/
theorem State.withFetchWord_32 (w : Nat) :
    State.withFetchWord ⟨x, h⟩ 32 w = ⟨x, h.placeWord (BitVec.ofNat 32 w)⟩ := by
  have low : BitVec.ofNat 32 (w % 2 ^ 32) = BitVec.ofNat 32 w := BitVec.eq_of_toNat_eq (by simp)
  rw [State.withFetchWord, low]

end Sys2Proof.Machine

section
open Sys2Proof Sys2Proof.Machine

/-- Settles O3: a step is the end state again or an instruction, and an instruction that stores does so outside the
text. -/
theorem stepKeepsLaunchAndProgramText : Obligations.StepKeepsLaunchAndProgramText := by
  rintro ⟨x, h⟩ s' e
  obtain ⟨h', rfl, launch, text⟩ := step_keepsText e
  exact ⟨rfl, launch, text⟩

/-- Settles O51: the placed word can be fetched, decodes as before the placing, and its tier is admitted. -/
theorem placedWordRunsNext : Obligations.PlacedWordRunsNext := by
  rintro ⟨x, h⟩ w i noWrap hd
  rw [State.withFetchWord_32]
  exact step_of_fetches (Hart.placeWord_fetches _ noWrap) (by simpa using hd) (Hart.placeWord_admits hd)

/-- Settles O16, from the laws of a register read and a register write. -/
theorem registerReadAfterWrite : Obligations.RegisterReadAfterWrite :=
  fun _ h r r' v => ⟨h.readReg_zero, h.writeReg_zero v, h.readReg_writeReg r r' v⟩

/-- Settles O52: a closed fact about `resetLaunch` and `Codes.published`. -/
theorem resetParametersAreTheDefaults : Obligations.ResetParametersAreTheDefaults := by
  unfold Obligations.ResetParametersAreTheDefaults
  decide

end

/-! # Proofs for the state family: the invariant, the frames of rule R23, and what an instruction depends on -/

namespace Sys2Proof.Machine

variable {x : XLen} {h h' : Hart x} {i : Instr}

/-! ## The updates of a hart keep the invariant -/

/-- `4` is a multiple of `IALIGN/8`, also where `pc + 4` wraps. -/
theorem add_four_aligned {pc : Word x} {a : IAlign} (ha : pc.toNat % a.bytes = 0) : (pc + 4).toNat % a.bytes = 0 := by
  have four : (4 : Word x).toNat = 4 := by cases x <;> rfl
  have bytes_dvd : a.bytes ∣ 4 := by cases a <;> decide
  have four_dvd : 4 ∣ 2 ^ x.bits := by cases x <;> decide
  rw [BitVec.toNat_add, four, Nat.mod_mod_of_dvd _ (bytes_dvd.trans four_dvd)]
  exact Nat.mod_eq_zero_of_dvd ((Nat.dvd_of_mod_eq_zero ha).add bytes_dvd)

theorem Hart.Inv.setPc {t : Word x} (inv : h.Inv) (ht : t.toNat % h.launch.ialign.bytes = 0) : (h.setPc t).Inv := by
  obtain ⟨slot, wf, bound, -, text⟩ := inv
  exact ⟨slot, wf, bound, ht, text⟩

theorem Hart.Inv.advance (inv : h.Inv) : h.advance.Inv := by
  have aligned : h.pc.toNat % h.launch.ialign.bytes = 0 := by
    obtain ⟨-, -, -, aligned, -⟩ := inv
    exact aligned
  exact inv.setPc (add_four_aligned aligned)

theorem Hart.Inv.writeReg (inv : h.Inv) (r : Reg) (v : Word x) : (h.writeReg r v).Inv := by
  obtain ⟨slot, wf, bound, aligned, text⟩ := inv
  exact ⟨by simpa using slot, by simpa using wf, by simpa using bound, by simpa using aligned, by simpa using text⟩

theorem Hart.Inv.withMem {m : Memory} (inv : h.Inv) (wf : m.wf) (bound : ∀ c ∈ m, c.1 < 2 ^ x.bits) :
    Hart.Inv { h with mem := m } := by
  obtain ⟨slot, -, -, aligned, text⟩ := inv
  exact ⟨slot, wf, bound, aligned, text⟩

theorem storedMem_wf {size : AccessSize} (wf : h.mem.wf) (a : Nat) (v : BitVec size.bits) :
    (storedMem h size a v).wf :=
  Memory.writeBytes_wf wf _ _

/-- Bytes stored below the top of the address space leave every address below it (rules R32, R42). -/
theorem storedMem_bound {size : AccessSize} {a n : Nat} {v : BitVec size.bits} (bound : ∀ c ∈ h.mem, c.1 < n)
    (fits : a + size.bytes ≤ n) : ∀ c ∈ storedMem h size a v, c.1 < n := by
  intro c hc
  rcases Memory.mem_writeBytes hc with ⟨-, written⟩ | before
  · simp only [inOrder_length, leBytes_length] at written
    omega
  · exact bound c before

theorem Hart.Inv.store {size : AccessSize} {a : Nat} (inv : h.Inv) (fits : a + size.bytes ≤ 2 ^ x.bits)
    (v : BitVec size.bits) : Hart.Inv { h with mem := storedMem h size a v } := by
  have ⟨_, wf, bound, _, _⟩ := inv
  exact inv.withMem (storedMem_wf wf a v) (storedMem_bound bound fits)

/-! ## Each shape of a next state keeps the invariant -/

theorem WritesRegister.inv (w : WritesRegister h i h') (inv : h.Inv) : h'.Inv := by
  obtain ⟨rd, v, -, -, -, rfl⟩ := w
  exact (inv.writeReg rd v).advance

theorem Jumps.inv (j : Jumps h i h') (inv : h.Inv) : h'.Inv := by
  obtain ⟨imm, t, -, -, -, rfl, rfl | ⟨-, aligned⟩⟩ := j
  · exact inv.advance
  · exact inv.setPc aligned

theorem Stores.inv (st : Stores h i h') (inv : h.Inv) : h'.Inv := by
  obtain ⟨size, off, v, -, -, -, ⟨fits, -⟩, -, rfl⟩ := st
  exact (inv.store fits v).advance

theorem exec_keepsInv {s' : State} (inv : h.Inv) (e : exec i ⟨x, h⟩ = .next s') : s'.Inv := by
  obtain ⟨h', rfl, w | j | st⟩ := exec_shape e
  · exact w.inv inv
  · exact j.inv inv
  · exact st.inv inv

theorem step_keepsInv {s s' : State} (inv : s.Inv) (e : step s = .next s') : s'.Inv := by
  obtain ⟨x, h⟩ := s
  rcases step_eq_next_cases e with ⟨-, rfl⟩ | ⟨-, insn, i, -, -, run⟩
  · exact inv
  · exact exec_keepsInv inv run

/-! ## The frames of the three shapes (rule R23) -/

/-- `exec_shape` for a next state that is already written as width and hart. -/
theorem exec_hart_shape (e : exec i ⟨x, h⟩ = .next ⟨x, h'⟩) : WritesRegister h i h' ∨ Jumps h i h' ∨ Stores h i h' := by
  obtain ⟨g, same, shape⟩ := exec_shape e
  cases same
  exact shape

theorem WritesRegister.readReg_eq (w : WritesRegister h i h') {r : Reg} (hr : i.dest ≠ some r) :
    h'.readReg r = h.readReg r := by
  obtain ⟨rd, v, dest, -, -, rfl⟩ := w
  have other : r ≠ rd := fun same => hr (same ▸ dest)
  rw [Hart.readReg_advance, Hart.readReg_writeReg, if_neg other]
  split
  · next zero => rw [zero, Hart.readReg_zero]
  · rfl

theorem Jumps.readReg_eq (j : Jumps h i h') (r : Reg) : h'.readReg r = h.readReg r := by
  obtain ⟨imm, t, -, -, -, rfl, -⟩ := j
  rfl

theorem Stores.readReg_eq (st : Stores h i h') (r : Reg) : h'.readReg r = h.readReg r := by
  obtain ⟨size, off, v, -, -, -, -, -, rfl⟩ := st
  rfl

theorem Stores.accessKind_eq (st : Stores h i h') : i.accessKind = some .store := by
  obtain ⟨size, off, v, access, -⟩ := st
  simp [Instr.accessKind, access]

/-- A store leaves every byte outside its one access as it was (rules R42, R219). -/
theorem Stores.read_outside (st : Stores h i h') {e : OffsetExt} {size : AccessSize} {off : Int}
    (ha : i.access e = some (.store, size, off)) {a : Nat}
    (outside : a < (h.dataAddress off).toNat ∨ (h.dataAddress off).toNat + size.bytes ≤ a) :
    h'.mem.read a = h.mem.read a := by
  obtain ⟨size', off', v, access, -, -, -, -, rfl⟩ := st
  cases (access e).symm.trans ha
  exact storedMem_outside v outside

theorem WritesRegister.pc_eq (w : WritesRegister h i h') : h'.pc = h.pc + 4 := by
  obtain ⟨rd, v, -, -, -, rfl⟩ := w
  simp

theorem WritesRegister.branchField_eq (w : WritesRegister h i h') : i.branchField = none := by
  obtain ⟨rd, v, -, field, -⟩ := w
  exact field

theorem Stores.pc_eq (st : Stores h i h') : h'.pc = h.pc + 4 := by
  obtain ⟨size, off, v, -, -, -, -, -, rfl⟩ := st
  rfl

theorem Stores.branchField_eq (st : Stores h i h') : i.branchField = none := by
  obtain ⟨size, off, v, -, -, field, -⟩ := st
  exact field

/-- A branch goes past itself or to the target its field names (rule R120). -/
theorem Jumps.pc_cases (j : Jumps h i h') :
    ∃ imm, i.branchField = some imm ∧ (h'.pc = h.pc + 4 ∨ h'.pc = h.pc + branchOffset x imm) := by
  obtain ⟨imm, t, field, -, -, rfl, past | ⟨target, -⟩⟩ := j
  · exact ⟨imm, field, .inl past⟩
  · exact ⟨imm, field, .inr target⟩

/-! ## What an instruction reads: the same outcome under other registers (rule R23) -/

/-- Two results that no observer of the pc, the memory, the launch parameters and the destination register `dest` tells
apart: both go on and agree there, or both stop for the same reason. -/
def SameOutcome (dest : Option Reg) : Result (Hart x) → Result (Hart x) → Prop
  | .next h, .next g =>
    h.pc = g.pc ∧ h.mem = g.mem ∧ h.launch = g.launch ∧ ∀ r : Reg, dest = some r → h.readReg r = g.readReg r
  | .fault e, .fault f => e = f
  | .refused e, .refused f => e = f
  | _, _ => False

section
variable {dest : Option Reg} {r r' : Result (Hart x)}

theorem SameOutcome.fault_iff (same : SameOutcome dest r r') (f : Fault) : r = .fault f ↔ r' = .fault f := by
  cases r <;> cases r' <;> simp_all [SameOutcome]

theorem SameOutcome.next (same : SameOutcome dest r r') (e : r = .next h') :
    ∃ g', r' = .next g' ∧ h'.pc = g'.pc ∧ h'.mem = g'.mem ∧ h'.launch = g'.launch ∧
      ∀ r : Reg, dest = some r → h'.readReg r = g'.readReg r := by
  subst e
  cases r' with
  | next g' => exact ⟨g', rfl, same⟩
  | fault f => exact same.elim
  | refused e => exact same.elim

theorem SameOutcome.andThen_same {α : Type} (m : Result α) {k k' : α → Result (Hart x)}
    (same : ∀ a, SameOutcome dest (k a) (k' a)) : SameOutcome dest (andThen m k) (andThen m k') := by
  cases m with
  | next a => exact same a
  | fault f => exact rfl
  | refused e => exact rfl

/-! The shared operations, on a hart and on the same hart with other registers `regs`. -/

variable {regs : Vector (Word x) 32}

theorem SameOutcome.onlyRv64 (same : SameOutcome dest r r') :
    SameOutcome dest (h.onlyRv64 i r) (Hart.onlyRv64 { h with regs := regs } i r') := by
  unfold Hart.onlyRv64
  split
  · exact rfl
  · exact same

theorem SameOutcome.onlyPositions (same : SameOutcome dest r r') :
    SameOutcome dest (h.onlyPositions i r) (Hart.onlyPositions { h with regs := regs } i r') := by
  unfold Hart.onlyPositions
  split
  · exact same
  · exact rfl

theorem SameOutcome.onlyLwugp (same : SameOutcome dest r r') :
    SameOutcome dest (h.onlyLwugp i r) (Hart.onlyLwugp { h with regs := regs } i r') := by
  unfold Hart.onlyLwugp
  split
  · exact rfl
  · exact same

theorem SameOutcome.finish {v w : Word x} (rd : Reg) (hv : v = w) :
    SameOutcome (some rd) (h.finish rd v) (Hart.finish { h with regs := regs } rd w) := by
  subst hv
  refine ⟨by simp, by simp, by simp, ?_⟩
  rintro _ ⟨⟩
  simp [Hart.readReg_writeReg]

theorem SameOutcome.branch {t t' : Bool} (off : Word x) (ht : t = t') :
    SameOutcome none (h.branch t off) (Hart.branch { h with regs := regs } t' off) := by
  subst ht
  unfold Hart.branch
  split
  · split
    · exact ⟨rfl, rfl, rfl, by simp⟩
    · exact rfl
  · exact ⟨rfl, rfl, rfl, by simp⟩

/-- The value `MemRead` answers, and the reason it stops for, do not depend on the registers. -/
theorem Hart.memRead_withRegs (size : AccessSize) (ea : Word x) :
    Hart.memRead { h with regs := regs } size ea = h.memRead size ea := rfl

theorem Hart.gpAddress_withRegs (hg : h.readReg gp = Hart.readReg { h with regs := regs } gp) (off : Word x) :
    Hart.gpAddress { h with regs := regs } off = h.gpAddress off := by
  rw [Hart.gpAddress, Hart.gpAddress, hg]

theorem SameOutcome.gpLoad (hg : h.readReg gp = Hart.readReg { h with regs := regs } gp) {size : AccessSize}
    (extend : BitVec size.bits → Word x) (rd : Reg) (off : Word x) :
    SameOutcome (some rd) (h.gpLoad size extend rd off) (Hart.gpLoad { h with regs := regs } size extend rd off) := by
  unfold Hart.gpLoad
  rw [Hart.gpAddress_withRegs hg, Hart.memRead_withRegs]
  exact .andThen_same _ fun v => .finish rd rfl

theorem SameOutcome.memWrite (size : AccessSize) (ea : Word x) (v : BitVec size.bits) :
    SameOutcome none (h.memWrite size ea v) (Hart.memWrite { h with regs := regs } size ea v) := by
  refine .andThen_same (h.checkAccess .store size ea) fun _ => ?_
  dsimp only
  split
  · exact rfl
  · exact ⟨rfl, rfl, rfl, by simp⟩

theorem SameOutcome.andThen_advance (same : SameOutcome dest r r') :
    SameOutcome dest (andThen r fun h => .next h.advance) (andThen r' fun h => .next h.advance) := by
  cases r <;> cases r' <;> simp_all [SameOutcome]

theorem SameOutcome.gpStore (hg : h.readReg gp = Hart.readReg { h with regs := regs } gp) {rs2 : Reg}
    (hs : h.readReg rs2 = Hart.readReg { h with regs := regs } rs2) (size : AccessSize) (off : Word x) :
    SameOutcome none (h.gpStore size rs2 off) (Hart.gpStore { h with regs := regs } size rs2 off) := by
  unfold Hart.gpStore
  rw [Hart.gpAddress_withRegs hg, ← hs]
  exact (SameOutcome.memWrite _ _ _).andThen_advance

theorem SameOutcome.lea {rs1 : Reg} (hs : h.readReg rs1 = Hart.readReg { h with regs := regs } rs1)
    {index index' : Word x} (hi : index = index') (rd : Reg) (k : Nat) :
    SameOutcome (some rd) (h.lea rd rs1 index k) (Hart.lea { h with regs := regs } rd rs1 index' k) :=
  .finish rd (by rw [hs, hi])

/-- An instruction answers the same under any registers that agree on those of its row of rule R23. -/
theorem hartMeaning_withRegs (i : Instr)
    (hs : ∀ r ∈ i.sources, h.readReg r = Hart.readReg { h with regs := regs } r) :
    SameOutcome i.dest (hartMeaning i h) (hartMeaning i { h with regs := regs }) := by
  cases i with
  | lbgp | lbugp | lhgp | lhugp | lwgp => exact .gpLoad (hs _ (.head _)) _ _ _
  | ldgp => exact .onlyRv64 (.gpLoad (hs _ (.head _)) _ _ _)
  | lwugp => exact .onlyLwugp (.gpLoad (hs _ (.head _)) _ _ _)
  | sbgp | shgp | swgp => exact .gpStore (hs _ (.head _)) (hs _ (.tail _ (.head _))) _ _
  | sdgp => exact .onlyRv64 (.gpStore (hs _ (.head _)) (hs _ (.tail _ (.head _))) _ _)
  | addigp rd imm => exact .finish rd (congrArg (· + sext x imm) (hs _ (.head _)))
  | bbc rs1 cimm => exact .onlyPositions (.branch _ (congrArg (bitIsClear · cimm) (hs _ (.head _))))
  | bbs rs1 cimm => exact .onlyPositions (.branch _ (congrArg (bitIsSet · cimm) (hs _ (.head _))))
  | beqc rs1 cimm => exact .branch _ (congrArg (equalsConstant · cimm) (hs _ (.head _)))
  | bnec rs1 cimm => exact .branch _ (congrArg (differsFromConstant · cimm) (hs _ (.head _)))
  | bfoz rd rs1 msb lsb => exact .onlyPositions (.finish rd (congrArg (bitField _ · msb lsb) (hs _ (.head _))))
  | bfos rd rs1 msb lsb => exact .onlyPositions (.finish rd (congrArg (bitField _ · msb lsb) (hs _ (.head _))))
  | leaH | leaW | leaD => exact .lea (hs _ (.head _)) (hs _ (.tail _ (.head _))) _ _
  | leaBZe | leaHZe | leaWZe | leaDZe =>
    exact .onlyRv64 (.lea (hs _ (.head _)) (congrArg zeroExtendedIndex (hs _ (.tail _ (.head _)))) _ _)

end

/-! ## An instruction without a data access, under another memory (rules R23, R40) -/

section
variable (m : Memory)

/-- The same outcome with the memory of the next state replaced. -/
def withMem (r : Result (Hart x)) : Result (Hart x) := andThen r fun h' => .next { h' with mem := m }

theorem Hart.writeReg_withMem (rd : Reg) (v : Word x) :
    Hart.writeReg { h with mem := m } rd v = { h.writeReg rd v with mem := m } := by
  unfold Hart.writeReg
  split <;> rfl

theorem Hart.finish_withMem (rd : Reg) (v : Word x) :
    Hart.finish { h with mem := m } rd v = withMem m (h.finish rd v) := by
  rw [Hart.finish, Hart.writeReg_withMem]
  rfl

theorem Hart.branch_withMem (taken : Bool) (off : Word x) :
    Hart.branch { h with mem := m } taken off = withMem m (h.branch taken off) := by
  unfold Hart.branch
  split
  · dsimp only
    split <;> rfl
  · rfl

theorem Hart.onlyRv64_withMem {r r' : Result (Hart x)} (same : r' = withMem m r) :
    Hart.onlyRv64 { h with mem := m } i r' = withMem m (h.onlyRv64 i r) := by
  unfold Hart.onlyRv64
  split
  · rfl
  · exact same

theorem Hart.onlyPositions_withMem {r r' : Result (Hart x)} (same : r' = withMem m r) :
    Hart.onlyPositions { h with mem := m } i r' = withMem m (h.onlyPositions i r) := by
  unfold Hart.onlyPositions
  split
  · exact same
  · rfl

theorem hartMeaning_withMem (noAccess : i.accessKind = none) :
    hartMeaning i { h with mem := m } = withMem m (hartMeaning i h) := by
  cases i with
  | lbgp | lbugp | lhgp | lhugp | lwgp | lwugp | ldgp | sbgp | shgp | swgp | sdgp => cases noAccess
  | addigp | leaH | leaW | leaD => exact Hart.finish_withMem m _ _
  | bfoz | bfos => exact Hart.onlyPositions_withMem m (Hart.finish_withMem m _ _)
  | leaBZe | leaHZe | leaWZe | leaDZe => exact Hart.onlyRv64_withMem m (Hart.finish_withMem m _ _)
  | bbc | bbs => exact Hart.onlyPositions_withMem m (Hart.branch_withMem m _ _)
  | beqc | bnec => exact Hart.branch_withMem m _ _

end

/-! ## Loads to x0 (rules R21, R94) -/

section
variable {size : AccessSize} {extend : BitVec size.bits → Word x} {off : Word x}

/-- A load faults exactly where its access does: the write of the register cannot. -/
theorem Hart.gpLoad_eq_fault {rd : Reg} {f : Fault} :
    h.gpLoad size extend rd off = .fault f ↔ h.memRead size (h.gpAddress off) = .fault f := by
  simp [Hart.gpLoad, andThen_eq_fault, Hart.finish]

/-- A load to `x0` completes where the same load to `rd` does, with its register write left out. -/
theorem Hart.gpLoad_zero_of_next {rd : Reg} (e : h.gpLoad size extend rd off = .next h') :
    h.gpLoad size extend 0 off = .next h.advance := by
  obtain ⟨v, read, -⟩ := andThen_eq_next.mp e
  rw [Hart.gpLoad, read]
  rfl

/-- A load `i` to `x0` against the load `j` of the same bytes to `rd`: the same faults, and the same completion but
for the register. -/
theorem exec_load_zero {j : Instr} {rd : Reg} (hi : hartMeaning i h = h.gpLoad size extend 0 off)
    (hj : hartMeaning j h = h.gpLoad size extend rd off) :
    (∀ f : Fault, exec i ⟨x, h⟩ = .fault f ↔ exec j ⟨x, h⟩ = .fault f) ∧
    (∀ h' : Hart x, exec j ⟨x, h⟩ = .next ⟨x, h'⟩ →
      ∃ h₀ : Hart x, exec i ⟨x, h⟩ = .next ⟨x, h₀⟩ ∧ h₀.pc = h'.pc ∧ ∀ r : Reg, h₀.readReg r = h.readReg r) := by
  simp only [exec_eq_fault, exec_eq_next, hi, hj, Hart.gpLoad_eq_fault, implies_true, true_and]
  intro h' e
  obtain ⟨v, rfl⟩ := Hart.gpLoad_shape e
  exact ⟨_, Hart.gpLoad_zero_of_next e, by simp, fun r => rfl⟩

end

/-! ## The branches on `x0` (rules R122 to R124): their one bit position, and the tests of zero -/

theorem Hart.onlyPositions_of_single {k : Result (Hart x)} {p : Fin 64} (only : i.positions = [p])
    (below : p.val < x.bits) : h.onlyPositions i k = k :=
  Hart.onlyPositions_ok (by simpa [Instr.PositionsOk, only] using below)

@[simp] theorem bitIsClear_zero (cimm : Fin 64) : bitIsClear (0 : Word x) cimm = true := by simp [bitIsClear]

@[simp] theorem bitIsSet_zero (cimm : Fin 64) : bitIsSet (0 : Word x) cimm = false := by simp [bitIsSet]

@[simp] theorem equalsConstant_zero : equalsConstant (0 : Word x) 0 = true := by simp [equalsConstant_eq]

end Sys2Proof.Machine

section
open Sys2Proof Sys2Proof.Machine

/-- Settles O2: a step is the end state again or an instruction, and each shape of an instruction's next state keeps the
invariant. -/
theorem everyStepKeepsInvariant : Obligations.EveryStepKeepsInvariant :=
  fun _ _ inv e => step_keepsInv inv e

/-- Settles O11: of the three shapes only the register write touches a register, the destination. -/
theorem onlyTheDestinationRegisterChanges : Obligations.OnlyTheDestinationRegisterChanges := by
  intro x h h' i e r hr
  rcases exec_hart_shape e with w | j | st
  · exact w.readReg_eq hr
  · exact j.readReg_eq r
  · exact st.readReg_eq r

/-- Settles O12: of the three shapes only the store touches memory, inside its access. -/
theorem onlyStoresChangeMemory : Obligations.OnlyStoresChangeMemory := by
  intro x h h' i e
  rcases exec_hart_shape e with w | j | st
  · exact ⟨fun _ _ => by rw [w.mem_eq], fun _ _ _ _ _ => by rw [w.mem_eq]⟩
  · exact ⟨fun _ _ => by rw [j.mem_eq], fun _ _ _ _ _ => by rw [j.mem_eq]⟩
  · exact ⟨fun notStore => absurd st.accessKind_eq notStore, fun _ _ access _ => st.read_outside access⟩

/-- Settles O13: of the three shapes only the jump has a branch field. -/
theorem onlyBranchesAssignThePc : Obligations.OnlyBranchesAssignThePc := by
  intro x h h' i e
  rcases exec_hart_shape e with w | j | st
  · exact ⟨fun _ => w.pc_eq, fun _ _ => .inl w.pc_eq⟩
  · obtain ⟨imm, field, pc⟩ := j.pc_cases
    refine ⟨fun noField => absurd (field.symm.trans noField) (by simp), fun imm' field' => ?_⟩
    cases field.symm.trans field'
    exact pc
  · exact ⟨fun _ => st.pc_eq, fun _ _ => .inl st.pc_eq⟩

/-- Settles O14: two harts that agree but for registers outside the sources are one hart with two register files. -/
theorem instructionsReadOnlyTheirSources : Obligations.InstructionsReadOnlyTheirSources := by
  rintro x h ⟨regs, _, _, _⟩ i rfl rfl rfl sources
  have same := hartMeaning_withRegs i sources
  simp only [exec_eq_fault, exec_eq_next]
  exact ⟨same.fault_iff, fun _ => same.next⟩

/-- Settles O15: with another memory the meaning is the same but for that memory. -/
theorem registerInstructionsIgnoreMemory : Obligations.RegisterInstructionsIgnoreMemory := by
  intro x h m i noAccess
  simp only [exec_eq_fault, exec_eq_next, hartMeaning_withMem m noAccess]
  exact ⟨fun f e => by rw [e]; rfl, fun h' e => by rw [e]; rfl⟩

/-- Settles O17: both loads are one access, followed by the register write of each. -/
theorem loadsToX0StillAccessMemory : Obligations.LoadsToX0StillAccessMemory := by
  rintro x h rd i j (⟨imm, ⟨rfl, rfl⟩ | ⟨rfl, rfl⟩⟩ |
    ⟨imm, ⟨rfl, rfl⟩ | ⟨rfl, rfl⟩ | ⟨rfl, rfl⟩ | ⟨rfl, rfl, exists_here⟩ | ⟨rfl, rfl, exists_here⟩⟩)
  case inl.inl | inl.inr | inr.inl | inr.inr.inl | inr.inr.inr.inl => exact exec_load_zero rfl rfl
  · exact exec_load_zero (Hart.onlyLwugp_ok exists_here) (Hart.onlyLwugp_ok exists_here)
  · exact exec_load_zero (Hart.onlyRv64_ok exists_here) (Hart.onlyRv64_ok exists_here)

/-- Settles O29: `x0` reads as zero, so each test is decided. -/
theorem branchesOnX0 : Obligations.BranchesOnX0 := by
  intro x h imm t aligned
  simp only [exec_eq_next]
  refine ⟨fun cimm below => ?_, fun cimm below => ?_, ?_⟩
  · refine (Hart.onlyPositions_of_single (i := .bbc 0 cimm imm) rfl below).trans ?_
    rw [Hart.readReg_zero, bitIsClear_zero]
    exact Hart.branch_result fun _ => aligned
  · refine (Hart.onlyPositions_of_single (i := .bbs 0 cimm imm) rfl below).trans ?_
    rw [Hart.readReg_zero, bitIsSet_zero]
    exact Hart.branch_result (by simp)
  · show h.branch (equalsConstant (h.readReg 0) 0) (branchOffset x imm) = _
    rw [Hart.readReg_zero, equalsConstant_zero]
    exact Hart.branch_result fun _ => aligned

/-- Settles O1: at reset there is no byte of memory and no program text, and slot and pc are zero. -/
theorem resetStateMeetsInvariant : Obligations.ResetStateMeetsInvariant := by
  unfold Obligations.ResetStateMeetsInvariant
  decide

/-- Settles O10, field by field of the reset state. -/
theorem resetStateValues : Obligations.ResetStateValues := by
  refine ⟨rfl, ?_, rfl, fun a => Memory.read_nil a, rfl, rfl, rfl⟩
  decide

end

/-! # Proofs for the memory family: the accesses, loads and stores, and the alignment of branch targets -/

namespace Sys2Proof.Machine

variable {x : XLen} {h h' : Hart x} {i : Instr}

/-! ## An instruction that completes exists (rules R91, R93, R148) -/

theorem Hart.rv64_of_onlyRv64_eq_next {k : Result (Hart x)} (e : h.onlyRv64 i k = .next h') : x = .rv64 := by
  cases x with
  | rv32 => exact absurd e (Hart.raiseIllegal_ne_next h i h')
  | rv64 => rfl

theorem Hart.positionsOk_of_onlyPositions_eq_next {k : Result (Hart x)} (e : h.onlyPositions i k = .next h') :
    i.PositionsOk x := by
  unfold Hart.onlyPositions at e
  split at e
  · next ok => simpa [Instr.PositionsOk] using ok
  · exact absurd e (Hart.raiseIllegal_ne_next h i h')

theorem Hart.lwugp_exists_of_onlyLwugp_eq_next {k : Result (Hart x)} (e : h.onlyLwugp i k = .next h') :
    x = .rv64 ∨ h.launch.lwugpOnRv32 = .legal := by
  unfold Hart.onlyLwugp at e
  split at e
  · exact absurd e (Hart.raiseIllegal_ne_next h i h')
  · next ok =>
    cases x
    · cases legal : h.launch.lwugpOnRv32
      · exact .inr rfl
      · exact absurd ⟨rfl, legal⟩ ok
    · exact .inl rfl

/-- Only the checks on width, positions and LWUGP stand between an instruction and its well-formedness, and an
instruction that completes has passed its own. -/
theorem wellFormed_of_hartMeaning_eq_next (m : hartMeaning i h = .next h') :
    i.WellFormed x h.launch.lwugpOnRv32 := by
  cases i with
  | ldgp | sdgp | leaBZe | leaHZe | leaWZe | leaDZe =>
    exact ⟨fun _ => Hart.rv64_of_onlyRv64_eq_next m, nofun, nofun⟩
  | bbc | bbs | bfoz | bfos => exact ⟨nofun, Hart.positionsOk_of_onlyPositions_eq_next m, nofun⟩
  | lwugp =>
    exact ⟨nofun, nofun, fun _ => Hart.lwugp_exists_of_onlyLwugp_eq_next m⟩
  | lbgp | lbugp | lhgp | lhugp | lwgp | sbgp | shgp | swgp | addigp | beqc | bnec | leaH | leaW | leaD =>
    exact ⟨nofun, nofun, nofun⟩

/-! ## What a load or a store leaves where it completes (rules R140, R170) -/

theorem Hart.gpStore_storeResult {size : AccessSize} {rs2 : Reg} {off : Word x}
    (e : h.gpStore size rs2 off = .next h') :
    h.StoreResult h' size (h.gpAddress off).toNat ((h.readReg rs2).setWidth size.bits) := by
  obtain ⟨accessible, outside, -⟩ := Hart.gpStore_eq_next e
  obtain ⟨g, e', result⟩ := Hart.gpStore_result accessible outside
  cases e.symm.trans e'
  exact result

/-- The load of the bytes a store wrote completes with the value stored (rules R45, R53): the store leaves `x3` alone,
so both make the same access. -/
theorem Hart.gpLoad_after_gpStore {g : Hart x} {size : AccessSize} {rs2 : Reg} {off : Word x}
    {extend : BitVec size.bits → Word x} (rd : Reg) (e : h.gpStore size rs2 off = .next g)
    (accessible : g.Accessible .load size (g.gpAddress off).toNat) :
    ∃ g', g.gpLoad size extend rd off = .next g' ∧
      g.RegisterResult g' rd (extend ((h.readReg rs2).setWidth size.bits)) := by
  obtain ⟨holds, -, regs, -⟩ := Hart.gpStore_storeResult e
  have sameAddress : g.gpAddress off = h.gpAddress off := congrArg (· + off) (regs gp)
  exact Hart.gpLoad_result accessible (sameAddress ▸ holds)

/-- A memory instruction that completes made an accessible access at the address of the table: a load answers the bytes
there, extended one way or the other, and a store leaves the low bits of its register there. -/
theorem hartMeaning_access_result {kind : AccessKind} {size : AccessSize} {off : Int}
    (ha : i.access h.launch.uloadOffsetExt = some (kind, size, off)) (m : hartMeaning i h = .next h') :
    h.Accessible kind size (h.dataAddress off).toNat ∧
    ((kind = .load ∧ ∃ (rd : Reg) (v : BitVec size.bits) (w : Word x), i.dest = some rd ∧
        h.Holds size (h.dataAddress off).toNat v ∧ (w = sext x v ∨ w = zext x v) ∧ h.RegisterResult h' rd w) ∨
     (kind = .store ∧ ∃ rs2 : Reg, i.sources = [3, rs2] ∧
        h.StoreResult h' size (h.dataAddress off).toNat ((h.readReg rs2).setWidth size.bits))) := by
  rcases hartMeaning_access ha (wellFormed_of_hartMeaning_eq_next m) with
    ⟨rfl, rd, dest, run | run⟩ | ⟨rfl, rs2, sources, run⟩ <;> rw [run] at m
  · obtain ⟨v, accessible, holds, result⟩ := Hart.gpLoad_eq_next m
    exact ⟨accessible, .inl ⟨rfl, rd, v, _, dest, holds, .inl rfl, result⟩⟩
  · obtain ⟨v, accessible, holds, result⟩ := Hart.gpLoad_eq_next m
    exact ⟨accessible, .inl ⟨rfl, rd, v, _, dest, holds, .inr rfl, result⟩⟩
  · obtain ⟨accessible, -, -⟩ := Hart.gpStore_eq_next m
    exact ⟨accessible, .inr ⟨rfl, rs2, sources, Hart.gpStore_storeResult m⟩⟩

theorem Hart.RegisterResult.readReg_dest {rd : Reg} {v : Word x} (result : h.RegisterResult h' rd v) (nonzero : rd ≠ 0) :
    h'.readReg rd = v := by
  obtain ⟨regs, -⟩ := result
  rw [regs, if_neg nonzero, if_pos rfl]

theorem Hart.RegisterResult.readReg_other {rd r : Reg} {v : Word x} (result : h.RegisterResult h' rd v)
    (other : r ≠ rd) : h'.readReg r = h.readReg r := by
  obtain ⟨regs, -⟩ := result
  rw [regs, if_neg other]
  split
  · next zero => rw [zero, Hart.readReg_zero]
  · rfl

/-! ## An access that stops (rules R41, R42, R47, R56) -/

theorem andThen_assoc {α β γ : Type} (r : Result α) (k : α → Result β) (k' : β → Result γ) :
    andThen (andThen r k) k' = andThen r fun a => andThen (k a) k' := by
  cases r <;> rfl

/-- Every memory instruction that exists begins with the checks of its one access, before it reads, writes or looks at
the program text. -/
theorem hartMeaning_checks_first {kind : AccessKind} {size : AccessSize} {off : Int}
    (ha : i.access h.launch.uloadOffsetExt = some (kind, size, off)) (hw : i.WellFormed x h.launch.lwugpOnRv32) :
    ∃ k, hartMeaning i h = andThen (h.checkAccess kind size (h.dataAddress off)) k := by
  rcases hartMeaning_access ha hw with ⟨rfl, rd, -, run | run⟩ | ⟨rfl, rs2, -, run⟩ <;>
    exact ⟨_, run.trans (andThen_assoc ..)⟩

/-- The kinds of data access are load and store, so the fault of the checks is named by whether it is a load. -/
theorem access_kind_cases {e : OffsetExt} {kind : AccessKind} {size : AccessSize} {off : Int}
    (ha : i.access e = some (kind, size, off)) : kind = .load ∨ kind = .store := by
  cases i <;> cases ha <;> simp

section
variable {kind : AccessKind} {size : AccessSize} {ea : Word x}

theorem Hart.checkAccess_of_wraps (wraps : 2 ^ x.bits < ea.toNat + size.bytes) :
    h.checkAccess kind size ea = .refused (.wrapsAddressSpace ea.toNat) :=
  if_pos wraps

theorem Hart.checkAccess_of_misaligned (fits : ea.toNat + size.bytes ≤ 2 ^ x.bits)
    (misaligned : ea.toNat % size.bytes ≠ 0) (mode : h.launch.misaligned = .fault) :
    h.checkAccess kind size ea = .fault (misalignedFault kind h.pc.toNat ea.toNat) := by
  rw [Hart.checkAccess, if_neg (Nat.not_lt.mpr fits), if_neg misaligned, mode]
  rfl

theorem Hart.checkAccess_of_not_admitted (fits : ea.toNat + size.bytes ≤ 2 ^ x.bits)
    (aligned : ea.toNat % size.bytes = 0) (denied : h.launch.admits kind size ea.toNat = false) :
    h.checkAccess kind size ea = .fault (accessFault kind h.pc.toNat ea.toNat) := by
  rw [Hart.checkAccess, if_neg (Nat.not_lt.mpr fits), if_pos aligned, denied]
  rfl

theorem Hart.checkAccess_of_byte_not_admitted (fits : ea.toNat + size.bytes ≤ 2 ^ x.bits)
    (misaligned : ea.toNat % size.bytes ≠ 0) (mode : h.launch.misaligned = .split)
    (denied : ∃ k : Nat, k < size.bytes ∧ h.launch.admits kind .byte (ea.toNat + k) = false) :
    h.checkAccess kind size ea = .fault (accessFault kind h.pc.toNat ea.toNat) := by
  have notAll : h.launch.admitsBytes kind ea.toNat size.bytes = false := by
    obtain ⟨k, below, no⟩ := denied
    rw [← Bool.not_eq_true, admitsBytes_iff]
    exact fun all => absurd (all k below) (by simp [no])
  rw [Hart.checkAccess, if_neg (Nat.not_lt.mpr fits), if_neg misaligned, mode]
  dsimp only
  rw [notAll]
  rfl

theorem Launch.overlapsText_of_mem {l : Launch} {a n t : Nat} (ht : t ∈ l.text) (below : t < a + n)
    (above : a < t + 4) : l.overlapsText a n = true :=
  List.any_eq_true.mpr ⟨t, ht, by simp [below, above]⟩

/-- A store that passes the checks and overlaps the program text is refused (rule R56). -/
theorem Hart.gpStore_of_overlapsText {rs2 : Reg} {off : Word x}
    (accessible : h.Accessible .store size (h.gpAddress off).toNat)
    (overlaps : h.launch.overlapsText (h.gpAddress off).toNat size.bytes = true) :
    h.gpStore size rs2 off = .refused (.storeOverlapsText (h.gpAddress off).toNat) := by
  rw [Hart.gpStore, Hart.memWrite, Hart.checkAccess_eq_next.mpr accessible, andThen_next, if_pos overlaps]
  rfl

end

/-! ## The branches, and the parity of their targets (rules R49, R76, R121) -/

/-- Every branch that exists is the shared branch shape at the offset of its field (rule R120). -/
theorem hartMeaning_branch {imm : BitVec 10} (hf : i.branchField = some imm)
    (hw : i.WellFormed x h.launch.lwugpOnRv32) :
    ∃ taken : Bool, hartMeaning i h = h.branch taken (branchOffset x imm) := by
  obtain ⟨-, positions, -⟩ := hw
  cases i <;> cases hf
  case bbc | bbs => exact ⟨_, Hart.onlyPositions_ok positions⟩
  case beqc | bnec => exact ⟨_, rfl⟩

theorem branchOffset_even (imm : BitVec 10) : (branchOffset x imm).toNat % 2 = 0 := by
  have twice : branchOffset x imm = BitVec.ofInt x.bits (2 * imm.toInt) :=
    congrArg (BitVec.ofInt x.bits) (append_zeros_toInt (n := 9) (k := 1) imm)
  rw [twice, BitVec.toNat_ofInt]
  cases x <;> simp only [XLen.bits] <;> omega

/-- From an even pc every branch target is even, also where the sum wraps. -/
theorem branch_target_even (imm : BitVec 10) (even : h.pc.toNat % 2 = 0) :
    (h.pc + branchOffset x imm).toNat % 2 = 0 := by
  have two_dvd : 2 ∣ 2 ^ x.bits := by cases x <;> decide
  rw [BitVec.toNat_add, Nat.mod_mod_of_dvd _ two_dvd, Nat.add_mod, even, branchOffset_even]

end Sys2Proof.Machine

section
open Sys2Proof Sys2Proof.Machine

/-- Settles O27: each branch is the shared shape, and with 2-byte alignment its target from an even pc is aligned. -/
theorem noMisalignedTargetUnderIalign16 : Obligations.NoMisalignedTargetUnderIalign16 := by
  intro x h i align even isBranch wf
  obtain ⟨imm, field⟩ := Option.ne_none_iff_exists'.mp isBranch
  obtain ⟨taken, run⟩ := hartMeaning_branch field wf
  have aligned : (h.pc + branchOffset x imm).toNat % h.launch.ialign.bytes = 0 := by
    rw [align]
    exact branch_target_even imm even
  exact ⟨_, exec_eq_next.mpr (run.trans (Hart.branch_result fun _ => aligned))⟩

/-- Settles O32: a completed memory instruction is a load or a store at the address of the table, each with its frame. -/
theorem everyAccessIsAtGpPlusOffset : Obligations.EveryAccessIsAtGpPlusOffset := by
  intro x h h' i kind size off access e ea
  obtain ⟨accessible, ⟨rfl, rd, v, w, dest, holds, extension, result⟩ | ⟨rfl, rs2, sources, result⟩⟩ :=
    hartMeaning_access_result access (exec_eq_next.mp e)
  · refine ⟨accessible, fun _ => ⟨v, holds, fun r named nonzero => ?_⟩, nofun, ?_, fun notGp => ?_⟩
    · cases dest.symm.trans named
      rw [result.readReg_dest nonzero]
      exact extension
    · obtain ⟨-, -, mem, -⟩ := result
      exact fun a _ => mem a
    · exact result.readReg_other fun same => notGp (same ▸ dest)
  · obtain ⟨stored, frame, regs, -⟩ := result
    refine ⟨accessible, nofun, fun _ r named => ?_, fun a outside => frame a (outside.resolve_left nofun),
      fun _ => regs 3⟩
    cases sources.symm.trans named
    exact stored

/-- Settles O33: an extended immediate is the integer of its field times the size of the access, and the field bounds
it. -/
theorem offsetOperandsLieInTheirRanges : Obligations.OffsetOperandsLieInTheirRanges := by
  intro x h b f
  have signed {n : Nat} (v : BitVec n) : h.gpAddress (sext x v) = h.dataAddress v.toInt := rfl
  have unsigned {n : Nat} (v : BitVec n) : h.gpAddress (zext x v) = h.dataAddress v.toNat :=
    congrArg h.gpAddress (zext_eq_ofInt v)
  have b_low := b.le_toInt
  have b_high := b.toInt_lt
  have f_low := f.le_toInt
  have f_high := f.toInt_lt
  simp only [signed, unsigned, immH_toInt, immW_toInt, immD_toInt, immH_toNat, immW_toNat, Nat.cast_mul,
    Nat.cast_ofNat, true_and]
  omega

/-- Settles O34: each is the load shape under the sign extension. -/
theorem signedLoadsWriteTheExtendedValue : Obligations.SignedLoadsWriteTheExtendedValue := by
  intro x h rd
  refine ⟨?lbgp, ?lhgp, ?lwgp⟩ <;> intro imm v accessible holds
  all_goals exact exec_of_result (Hart.gpLoad_result accessible holds)

/-- Settles O35: each is the load shape under the zero extension, LWUGP where it exists. -/
theorem unsignedLoadsWriteTheExtendedValue : Obligations.UnsignedLoadsWriteTheExtendedValue := by
  intro x h rd off
  refine ⟨?lbugp, ?lhugp, ?lwugp⟩
  case lwugp =>
    intro imm v exists_here accessible holds
    refine exec_of_result ?_
    rw [hartMeaning, Hart.onlyLwugp_ok exists_here]
    exact Hart.gpLoad_result accessible holds
  all_goals exact fun imm v accessible holds => exec_of_result (Hart.gpLoad_result accessible holds)

/-- Settles O36: on RV64 LDGP is the load shape, and the extension of a double word to 64 bits is the word itself. -/
theorem ldgpLoadsADoubleWord : Obligations.LdgpLoadsADoubleWord := by
  intro h rd imm v accessible holds
  have whole : zext .rv64 v = v := v.setWidth_eq
  rw [← whole]
  exact exec_of_result (Hart.gpLoad_result accessible holds)

/-- Settles O37: each is the store shape, SDGP on RV64. -/
theorem storesWriteTheLowBits : Obligations.StoresWriteTheLowBits := by
  intro x h rs2
  refine ⟨?sbgp, ?shgp, ?swgp, ?sdgp⟩
  case sdgp =>
    intro imm ea exists_here accessible outside
    refine exec_of_result ?_
    rw [hartMeaning, Hart.onlyRv64_ok exists_here]
    exact Hart.gpStore_result accessible outside
  all_goals exact fun imm accessible outside => exec_of_result (Hart.gpStore_result accessible outside)

/-- Settles O38: the frame of a completed store shape, of which SDGP is one only where it exists. -/
theorem storesLeaveOtherBytesAlone : Obligations.StoresLeaveOtherBytesAlone := by
  intro x h h' rs2 i size off form e
  have run : h.gpStore size rs2 off = .next h' := by
    have m := exec_eq_next.mp e
    rcases form with ⟨imm, rfl, rfl, rfl⟩ | ⟨imm, ⟨rfl, rfl, rfl⟩ | ⟨rfl, rfl, rfl⟩ | ⟨rfl, rfl, rfl⟩⟩
    · exact m
    · exact m
    · exact m
    · exact Hart.onlyRv64_eq_next m
  obtain ⟨-, frame⟩ := Hart.gpStore_storeResult run
  exact frame

/-- Settles O39: a load after a store of the same shape; that SDGP completed says the width is 64, where the extension
changes nothing. -/
theorem loadAfterStoreGivesTheStoredValue : Obligations.LoadAfterStoreGivesTheStoredValue := by
  intro x h g rs2 rd
  refine ⟨?byte, ?half, ?word, ?double⟩ <;> intro imm e accessible <;> have m := exec_eq_next.mp e
  case double =>
    obtain rfl := Hart.rv64_of_onlyRv64_eq_next m
    have whole : zext .rv64 ((h.readReg rs2).setWidth 64) = h.readReg rs2 := by simp [zext]
    rw [← whole]
    exact exec_of_result (Hart.gpLoad_after_gpStore rd (Hart.onlyRv64_eq_next m) accessible)
  all_goals exact exec_of_result (Hart.gpLoad_after_gpStore rd m accessible)

/-- Settles O40: the checks come first, so the outcome of a failed check is that of the instruction. -/
theorem accessesThatFailTheChecksStop : Obligations.AccessesThatFailTheChecksStop := by
  intro x h i kind size off access wf ea
  obtain ⟨k, run⟩ := hartMeaning_checks_first access wf
  simp only [exec_eq_fault, exec_eq_refused, run]
  refine ⟨fun wraps => ?_, fun fits misaligned mode => ?_, fun fits denied => ?_⟩
  · rw [Hart.checkAccess_of_wraps wraps, andThen_refused]
  · rw [Hart.checkAccess_of_misaligned fits misaligned mode, andThen_fault]
    rcases access_kind_cases access with rfl | rfl <;> rfl
  · have stops : h.checkAccess kind size (h.dataAddress off) = .fault (accessFault kind h.pc.toNat ea) := by
      rcases denied with ⟨aligned, no⟩ | ⟨misaligned, mode, no⟩
      · exact Hart.checkAccess_of_not_admitted fits aligned no
      · exact Hart.checkAccess_of_byte_not_admitted fits misaligned mode no
    rw [stops, andThen_fault]
    rcases access_kind_cases access with rfl | rfl <;> rfl

/-- Settles O42: a store that exists is the store shape, which is refused after its checks. -/
theorem storesToProgramTextAreRefused : Obligations.StoresToProgramTextAreRefused := by
  rintro x h i size off access wf accessible ⟨t, ht, below, above⟩
  rcases hartMeaning_access access wf with ⟨load, -⟩ | ⟨-, rs2, -, run⟩
  · cases load
  · exact exec_eq_refused.mpr
      (run.trans (Hart.gpStore_of_overlapsText accessible (Launch.overlapsText_of_mem ht below above)))

end

/-! # Proofs for the encoding family: decoding and encoding, and instructions that do not exist at a width -/

namespace Sys2Proof

variable {x : XLen} {lw : LwugpOnRv32} {c : Codes} {w : BitVec 32} {i j : Instr} {d : Decoded}

/-! ## What decoding answers for a word of one instruction -/

/-- The answer for a word of the instruction `i`: the three checks of rules R91, R93 and R148, and `i` where it passes
them. -/
def Instr.decodedAt (x : XLen) (lw : LwugpOnRv32) (i : Instr) : Decoded :=
  if ¬ i.WidthOk x then .illegal .rv64Only
  else if ¬ i.PositionsOk x then .illegal .zeroBitSet
  else if ¬ i.LwugpOk x lw then .illegal .lwugpOnRv32
  else .instr i

theorem Instr.decodedAt_of_wellFormed (wf : i.WellFormed x lw) : i.decodedAt x lw = .instr i := by
  obtain ⟨width, positions, lwugp⟩ := wf
  rw [Instr.decodedAt, if_neg (not_not.mpr width), if_neg (not_not.mpr positions), if_neg (not_not.mpr lwugp)]

theorem Instr.decodedAt_of_rv64Only (only : i.rv64Only = true) : i.decodedAt .rv32 lw = .illegal .rv64Only :=
  if_pos fun width => nomatch width only

theorem Instr.decodedAt_eq_instr (e : i.decodedAt x lw = .instr j) : i = j ∧ i.WellFormed x lw := by
  unfold Instr.decodedAt at e
  split_ifs at e with width positions lwugp
  cases e
  exact ⟨rfl, width, positions, lwugp⟩

/-! ### The checks of the decoder are those of `decodedAt` -/

theorem Instr.decodedAt_of_unchecked (width : i.rv64Only = false) (positions : i.positions = [])
    (lwugp : i.isLwugp = false) : i.decodedAt x lw = .instr i := by
  apply Instr.decodedAt_of_wellFormed
  simp [Instr.WellFormed, Instr.PositionsOk, width, positions, lwugp]

theorem decodeRv64Only_eq (only : i.rv64Only = true) (positions : i.positions = []) (lwugp : i.isLwugp = false) :
    decodeRv64Only x i = i.decodedAt x lw := by
  cases x with
  | rv32 => exact (Instr.decodedAt_of_rv64Only only).symm
  | rv64 =>
    refine (Instr.decodedAt_of_wellFormed ?_).symm
    simp [Instr.WellFormed, Instr.WidthOk, Instr.PositionsOk, positions, lwugp]

theorem decodeLwugp_eq (rd : Reg) (imm : BitVec 17) :
    decodeLwugp x lw (.lwugp rd imm) = (Instr.lwugp rd imm).decodedAt x lw := by
  cases x <;> cases lw <;> rfl

/-- The zero bits of an RV32 format are `0` where the positions it holds are below 32 (rule R91). -/
theorem decodeZeroBits_eq {bits : List Bool} (width : i.rv64Only = false) (lwugp : i.isLwugp = false)
    (same : (∀ b ∈ bits, b = false) ↔ ∀ p ∈ i.positions, p.val < 32) :
    decodeZeroBits x bits i = i.decodedAt x lw := by
  cases x with
  | rv64 =>
    have positions : i.PositionsOk .rv64 := fun p _ => p.isLt
    exact (Instr.decodedAt_of_wellFormed ⟨by simp [width], positions, by simp [lwugp]⟩).symm
  | rv32 =>
    have zero : bits.any id = true ↔ ¬ i.PositionsOk .rv32 := by
      rw [Instr.PositionsOk, ← same]
      simp
    simp [decodeZeroBits, Instr.decodedAt, width, lwugp, zero]

/-- A 6-bit position is one of RV32 where its highest bit is zero. -/
theorem position_lt_iff (p : BitVec 6) : p.toFin.val < 32 ↔ p.getLsbD 5 = false := by
  revert p
  decide

theorem msbBF_lt_iff : (msbBF w).val < 32 ↔ w.getLsbD 31 = false := by
  rw [msbBF, position_lt_iff, BitVec.getLsbD_extractLsb]
  rfl

theorem lsbBF_lt_iff : (lsbBF w).val < 32 ↔ w.getLsbD 25 = false := by
  rw [lsbBF, position_lt_iff, BitVec.getLsbD_extractLsb]
  rfl

theorem cimmBB_lt_iff : (cimmBB w).val < 32 ↔ w.getLsbD 7 = false := by
  rw [cimmBB, position_lt_iff, BitVec.getLsbD_append, if_neg (by decide), BitVec.getLsbD_extractLsb]
  rfl

theorem decodeZeroBits_BF (width : i.rv64Only = false) (lwugp : i.isLwugp = false)
    (positions : i.positions = [msbBF w, lsbBF w]) :
    decodeZeroBits x [w.getLsbD 31, w.getLsbD 25] i = i.decodedAt x lw :=
  decodeZeroBits_eq width lwugp (by simp [positions, msbBF_lt_iff, lsbBF_lt_iff])

theorem decodeZeroBits_BB (width : i.rv64Only = false) (lwugp : i.isLwugp = false)
    (positions : i.positions = [cimmBB w]) :
    decodeZeroBits x [w.getLsbD 7] i = i.decodedAt x lw :=
  decodeZeroBits_eq width lwugp (by simp [positions, cimmBB_lt_iff])

/-! ## A word with the function code of a row is the encoding of its own fields -/

section
variable {f2 : BitVec 2} {f3 : BitVec 3} {f7 : BitVec 7}

section
variable (major : w.extractLsb 6 0 = 0b0001011#7) (code : w.extractLsb 13 12 = f2)
include major code

theorem encGB_of_code : encGB f2 (rdOf w) (immGB w) = w := code ▸ encGB_of_fields w major
theorem encGSB_of_code : encGSB f2 (rs2Of w) (immGSB w) = w := code ▸ encGSB_of_fields w major
end

section
variable (major : w.extractLsb 6 0 = 0b0101011#7) (code : w.extractLsb 14 12 = f3)
include major code

theorem encGH_of_code : encGH f3 (rdOf w) (immGH w) = w := code ▸ encGH_of_fields w major
theorem encGW_of_code : encGW f3 (rdOf w) (immGW w) = w := code ▸ encGW_of_fields w major
theorem encGD_of_code : encGD f3 (rdOf w) (immGD w) = w := code ▸ encGD_of_fields w major
theorem encGSD_of_code : encGSD f3 (rs2Of w) (immGSD w) = w := code ▸ encGSD_of_fields w major
theorem encGSH_of_code : encGSH f3 (rs2Of w) (immGSH w) = w := code ▸ encGSH_of_fields w major
theorem encGSW_of_code : encGSW f3 (rs2Of w) (immGSW w) = w := code ▸ encGSW_of_fields w major
end

section
variable (major : w.extractLsb 6 0 = 0b1011011#7)
include major

theorem encBF_of_code (code : w.extractLsb 14 12 = f3) : encBF f3 (rdOf w) (rs1Of w) (msbBF w) (lsbBF w) = w :=
  code ▸ encBF_of_fields w major

theorem encBC_of_code (code : w.extractLsb 14 12 = f3) : encBC f3 (rs1Of w) (cimmBC w) (immBranch w) = w :=
  code ▸ encBC_of_fields w major

theorem encBB_of_code {bit30 : BitVec 1} (group : w.extractLsb 14 12 = 0b111#3) (code : w.extractLsb 30 30 = bit30) :
    encBB bit30 (rs1Of w) (cimmBB w) (immBranch w) = w := code ▸ encBB_of_fields w major group

theorem encR_of_code (group : w.extractLsb 14 12 = 0b000#3) (code : w.extractLsb 31 25 = f7) :
    encR f7 (rdOf w) (rs1Of w) (rs2Of w) = w := code ▸ encR_of_fields w major group
end

end

/-- The bit that tells BBS from BBC, as a field and as a bit (rule R74). -/
theorem bit30_eq_iff {b : Bool} : w.extractLsb 30 30 = BitVec.ofBool b ↔ w.getLsbD 30 = b := by
  have bit : w.extractLsb 30 30 = BitVec.ofBool (w.getLsbD 30) := by
    apply BitVec.eq_of_getLsbD_eq
    intro k below
    obtain rfl : k = 0 := by omega
    simp
  rw [bit]
  cases w.getLsbD 30 <;> cases b <;> simp

/-! ## Every answer of the decoder -/

/-- The answers the decoder can give for the word `w`: that of a row whose encoding `w` is, or `Unknown`. -/
inductive AnswerFor (x : XLen) (lw : LwugpOnRv32) (c : Codes) (w : BitVec 32) : Decoded → Prop
  | row (i : Instr) (word : encode c i = w) : AnswerFor x lw c w (i.decodedAt x lw)
  | unlisted (why : UnknownReason) : AnswerFor x lw c w (.unknown why)

theorem AnswerFor.of_eq (answer : d = i.decodedAt x lw) (word : encode c i = w) : AnswerFor x lw c w d :=
  answer ▸ .row i word

theorem AnswerFor.unchecked (word : encode c i = w) (width : i.rv64Only = false) (positions : i.positions = [])
    (lwugp : i.isLwugp = false) : AnswerFor x lw c w (.instr i) :=
  .of_eq (Instr.decodedAt_of_unchecked width positions lwugp).symm word

theorem AnswerFor.rv64Only (word : encode c i = w) (only : i.rv64Only = true) (positions : i.positions = [])
    (lwugp : i.isLwugp = false) : AnswerFor x lw c w (decodeRv64Only x i) :=
  .of_eq (decodeRv64Only_eq only positions lwugp) word

theorem AnswerFor.encode_wellFormed (answer : AnswerFor x lw c w (.instr i)) :
    encode c i = w ∧ i.WellFormed x lw := by
  generalize e : Decoded.instr i = d at answer
  cases answer with
  | row j word =>
    obtain ⟨rfl, wf⟩ := Instr.decodedAt_eq_instr e.symm
    exact ⟨word, wf⟩
  | unlisted why => cases e

theorem decodeCustom0_answer (major : w.extractLsb 6 0 = 0b0001011#7) :
    AnswerFor x lw c w (decodeCustom0 c w) := by
  unfold decodeCustom0
  dsimp only
  split_ifs with code code code code
  · exact .unchecked (encGB_of_code major code) rfl rfl rfl
  · exact .unchecked (encGB_of_code major code) rfl rfl rfl
  · exact .unchecked (encGB_of_code major code) rfl rfl rfl
  · exact .unchecked (encGSB_of_code major code) rfl rfl rfl
  · exact .unlisted _

theorem decodeCustom1_answer (major : w.extractLsb 6 0 = 0b0101011#7) :
    AnswerFor x lw c w (decodeCustom1 x lw c w) := by
  unfold decodeCustom1
  dsimp only
  split_ifs with code code code code code code code code
  · exact .unchecked (encGW_of_code major code) rfl rfl rfl
  · exact .rv64Only (encGSD_of_code major code) rfl rfl rfl
  · exact .unchecked (encGSH_of_code major code) rfl rfl rfl
  · exact .unchecked (encGH_of_code major code) rfl rfl rfl
  · exact .rv64Only (encGD_of_code major code) rfl rfl rfl
  · exact .unchecked (encGSW_of_code major code) rfl rfl rfl
  · exact .unchecked (encGH_of_code major code) rfl rfl rfl
  · exact .of_eq (decodeLwugp_eq _ _) (encGW_of_code major code)
  · exact .unlisted _

theorem decodeLea_answer (major : w.extractLsb 6 0 = 0b1011011#7) (group : w.extractLsb 14 12 = 0b000#3) :
    AnswerFor x lw c w (decodeLea x c w) := by
  unfold decodeLea
  dsimp only
  split_ifs with code code code code code code code
  · exact .unchecked (encR_of_code major group code) rfl rfl rfl
  · exact .unchecked (encR_of_code major group code) rfl rfl rfl
  · exact .unchecked (encR_of_code major group code) rfl rfl rfl
  · exact .rv64Only (encR_of_code major group code) rfl rfl rfl
  · exact .rv64Only (encR_of_code major group code) rfl rfl rfl
  · exact .rv64Only (encR_of_code major group code) rfl rfl rfl
  · exact .rv64Only (encR_of_code major group code) rfl rfl rfl
  · exact .unlisted _

theorem decodeCustom2_answer (major : w.extractLsb 6 0 = 0b1011011#7) :
    AnswerFor x lw c w (decodeCustom2 x c w) := by
  unfold decodeCustom2
  dsimp only
  split_ifs with code code code code code code bit30
  · exact decodeLea_answer major code
  · exact .of_eq (decodeZeroBits_BF rfl rfl rfl) (encBF_of_code major code)
  · exact .of_eq (decodeZeroBits_BF rfl rfl rfl) (encBF_of_code major code)
  · exact .unchecked (encBC_of_code major code) rfl rfl rfl
  · exact .unchecked (encBC_of_code major code) rfl rfl rfl
  · exact .of_eq (decodeZeroBits_BB rfl rfl rfl) (encBB_of_code major code (bit30_eq_iff.mpr bit30))
  · exact .of_eq (decodeZeroBits_BB rfl rfl rfl)
      (encBB_of_code major code (bit30_eq_iff.mpr (Bool.eq_false_of_not_eq_true bit30)))
  · exact .unlisted _

theorem decode_answer (x : XLen) (lw : LwugpOnRv32) (c : Codes) (w : BitVec 32) :
    AnswerFor x lw c w (decode x lw c w) := by
  unfold decode
  dsimp only
  split_ifs with major major major
  · exact decodeCustom0_answer major
  · exact decodeCustom1_answer major
  · exact decodeCustom2_answer major
  · exact .unlisted _

theorem encode_of_decode (e : decode x lw c w = .instr i) : encode c i = w := by
  obtain ⟨word, -⟩ := (e ▸ decode_answer x lw c w).encode_wellFormed
  exact word

theorem wellFormed_of_decode (e : decode x lw c w = .instr i) : i.WellFormed x lw := by
  obtain ⟨-, wf⟩ := (e ▸ decode_answer x lw c w).encode_wellFormed
  exact wf

/-! ## Rows with a printed code (rules R86, R87): these are read whatever the parameters are -/

section
variable (x) (lw) (c) (major : w.extractLsb 6 0 = 0b1011011#7)
include major

theorem decode_bfoz (code : w.extractLsb 14 12 = 0b010#3) :
    decode x lw c w = decodeZeroBits x [w.getLsbD 31, w.getLsbD 25] (.bfoz (rdOf w) (rs1Of w) (msbBF w) (lsbBF w)) := by
  simp [decode, decodeCustom2, major, code]

theorem decode_bfos (code : w.extractLsb 14 12 = 0b011#3) :
    decode x lw c w = decodeZeroBits x [w.getLsbD 31, w.getLsbD 25] (.bfos (rdOf w) (rs1Of w) (msbBF w) (lsbBF w)) := by
  simp [decode, decodeCustom2, major, code]

theorem decode_beqc (code : w.extractLsb 14 12 = 0b101#3) :
    decode x lw c w = .instr (.beqc (rs1Of w) (cimmBC w) (immBranch w)) := by
  simp [decode, decodeCustom2, major, code]

theorem decode_bnec (code : w.extractLsb 14 12 = 0b110#3) :
    decode x lw c w = .instr (.bnec (rs1Of w) (cimmBC w) (immBranch w)) := by
  simp [decode, decodeCustom2, major, code]

theorem decode_BB (code : w.extractLsb 14 12 = 0b111#3) :
    decode x lw c w = decodeZeroBits x [w.getLsbD 7]
      (if w.getLsbD 30 then .bbs (rs1Of w) (cimmBB w) (immBranch w)
       else .bbc (rs1Of w) (cimmBB w) (immBranch w)) := by
  simp [decode, decodeCustom2, major, code]

end

theorem decode_sdgp (x : XLen) (lw : LwugpOnRv32) (c : Codes) (major : w.extractLsb 6 0 = 0b0101011#7)
    (code : w.extractLsb 14 12 = 0b111#3) :
    decode x lw c w = decodeRv64Only x (.sdgp (rs2Of w) (immGSD w)) := by
  simp [decode, decodeCustom1, major, code]

/-- The offset field of a branch is that of its word (rules R74, R75). -/
theorem immBranch_of_decode {imm : BitVec 10} (e : decode x lw c w = .instr i) (field : i.branchField = some imm) :
    immBranch w = imm := by
  rw [← encode_of_decode e]
  cases i <;> cases field
  case bbc rs1 cimm | bbs rs1 cimm =>
    obtain ⟨-, -, -, -, -, -, offset⟩ := encBB_fields _ rs1 cimm imm
    exact offset
  case beqc rs1 cimm | bnec rs1 cimm =>
    obtain ⟨-, -, -, -, offset⟩ := encBC_fields _ rs1 cimm imm
    exact offset

/-! ## Decoding an encoded word (decision D13) -/

/-- The decoder compares a code with those before it, the constraint with those after it: both directions are needed. -/
theorem nodup_ne_both {α : Type} {l : List α} (distinct : l.Nodup) : l.Pairwise fun a b => a ≠ b ∧ b ≠ a :=
  distinct.imp fun ne => ⟨ne, ne.symm⟩

@[simp] theorem toFin_regBits (r : Reg) : (regBits r).toFin = r := rfl

/-- Under distinct codes the word of an instruction is answered by the row of that instruction, and by no other. -/
theorem decode_encode (distinct : c.Distinct) (i : Instr) : decode x lw c (encode c i) = i.decodedAt x lw := by
  obtain ⟨custom0, custom1, custom2⟩ := distinct
  replace custom0 := nodup_ne_both custom0
  replace custom1 := nodup_ne_both custom1
  replace custom2 := nodup_ne_both custom2
  simp only [Codes.custom0, Codes.custom1, Codes.custom2, List.pairwise_cons, List.forall_mem_cons]
    at custom0 custom1 custom2
  cases i with
  | lbgp | addigp | lbugp | sbgp =>
    rw [Instr.decodedAt_of_unchecked rfl rfl rfl]
    simp [encode, decode, decodeCustom0, encGB_fields, encGSB_fields, custom0, rdOf, rs2Of]
  | lwgp | shgp | lhgp | swgp | lhugp =>
    rw [Instr.decodedAt_of_unchecked rfl rfl rfl]
    simp [encode, decode, decodeCustom1, encGH_fields, encGW_fields, encGSH_fields, encGSW_fields, custom1, rdOf,
      rs2Of]
  | ldgp | sdgp =>
    rw [← decodeRv64Only_eq rfl rfl rfl]
    simp [encode, decode, decodeCustom1, encGD_fields, encGSD_fields, custom1, rdOf, rs2Of]
  | lwugp =>
    rw [← decodeLwugp_eq]
    simp [encode, decode, decodeCustom1, encGW_fields, custom1, rdOf]
  | leaH | leaW | leaD =>
    rw [Instr.decodedAt_of_unchecked rfl rfl rfl]
    simp [encode, decode, decodeCustom2, decodeLea, encR_fields, custom2, rdOf, rs1Of, rs2Of]
  | leaBZe | leaHZe | leaWZe | leaDZe =>
    rw [← decodeRv64Only_eq rfl rfl rfl]
    simp [encode, decode, decodeCustom2, decodeLea, encR_fields, custom2, rdOf, rs1Of, rs2Of]
  | beqc rs1 cimm imm =>
    obtain ⟨major, code, hrs1, hcimm, himm⟩ := encBC_fields 0b101#3 rs1 cimm imm
    rw [encode, decode_beqc _ _ _ major code, rs1Of_eq hrs1, hcimm, himm, Instr.decodedAt_of_unchecked rfl rfl rfl]
  | bnec rs1 cimm imm =>
    obtain ⟨major, code, hrs1, hcimm, himm⟩ := encBC_fields 0b110#3 rs1 cimm imm
    rw [encode, decode_bnec _ _ _ major code, rs1Of_eq hrs1, hcimm, himm, Instr.decodedAt_of_unchecked rfl rfl rfl]
  | bfoz rd rs1 msb lsb =>
    obtain ⟨major, code, hrd, hrs1, hmsb, hlsb⟩ := encBF_fields 0b010#3 rd rs1 msb lsb
    rw [encode, decode_bfoz _ _ _ major code, decodeZeroBits_BF rfl rfl rfl, rdOf_eq hrd, rs1Of_eq hrs1, msbBF_eq hmsb,
      lsbBF_eq hlsb]
  | bfos rd rs1 msb lsb =>
    obtain ⟨major, code, hrd, hrs1, hmsb, hlsb⟩ := encBF_fields 0b011#3 rd rs1 msb lsb
    rw [encode, decode_bfos _ _ _ major code, decodeZeroBits_BF rfl rfl rfl, rdOf_eq hrd, rs1Of_eq hrs1, msbBF_eq hmsb,
      lsbBF_eq hlsb]
  | bbc rs1 cimm imm =>
    obtain ⟨major, code, bit30, h5, h4, hrs1, himm⟩ := encBB_fields 0#1 rs1 cimm imm
    have clear : (encBB 0#1 rs1 cimm imm).getLsbD 30 = false := bit30_eq_iff.mp bit30
    rw [encode, decode_BB _ _ _ major code, clear, if_neg Bool.false_ne_true, decodeZeroBits_BB rfl rfl rfl,
      rs1Of_eq hrs1, cimmBB_eq h5 h4, himm]
  | bbs rs1 cimm imm =>
    obtain ⟨major, code, bit30, h5, h4, hrs1, himm⟩ := encBB_fields 1#1 rs1 cimm imm
    have set : (encBB 1#1 rs1 cimm imm).getLsbD 30 = true := bit30_eq_iff.mp bit30
    rw [encode, decode_BB _ _ _ major code, set, if_pos rfl, decodeZeroBits_BB rfl rfl rfl, rs1Of_eq hrs1,
      cimmBB_eq h5 h4, himm]

/-! ## The positions of an RV32 word, in five bits (rules R74, R77) -/

/-- A field whose highest bit is zero is the field without that bit, extended by a zero. -/
theorem extractLsb'_eq_setWidth {lo n : Nat} (top : w.getLsbD (lo + n) = false) :
    w.extractLsb' lo (n + 1) = (w.extractLsb' lo n).setWidth (n + 1) := by
  apply BitVec.eq_of_getLsbD_eq
  intro k below
  rcases Nat.lt_succ_iff_lt_or_eq.mp below with lower | rfl
  · simp [below, lower]
  · simp [top]

theorem msbBF_eq_five (zero : w.getLsbD 31 = false) : msbBF w = ((w.extractLsb' 26 5).setWidth 6).toFin :=
  congrArg BitVec.toFin (extractLsb'_eq_setWidth (lo := 26) (n := 5) zero)

theorem lsbBF_eq_five (zero : w.getLsbD 25 = false) : lsbBF w = ((w.extractLsb' 20 5).setWidth 6).toFin :=
  congrArg BitVec.toFin (extractLsb'_eq_setWidth (lo := 20) (n := 5) zero)

theorem cimmBB_eq_five (zero : w.getLsbD 7 = false) : cimmBB w = ((w.extractLsb' 20 5).setWidth 6).toFin := by
  have bit7 : w.extractLsb 7 7 = 0#1 := by
    apply BitVec.eq_of_getLsbD_eq
    intro k below
    obtain rfl : k = 0 := by omega
    simpa using zero
  rw [cimmBB, bit7]
  exact congrArg BitVec.toFin (BitVec.setWidth_eq_append (v := 5) (w := 6) (by decide)).symm

/-! ## Unknown words under the published codes (rule R92) -/

@[simp] theorem decodeRv64Only_ne_unknown (why : UnknownReason) : decodeRv64Only x i ≠ .unknown why := by
  cases x <;> nofun

@[simp] theorem decodeLwugp_ne_unknown (why : UnknownReason) : decodeLwugp x lw i ≠ .unknown why := by
  cases x <;> cases lw <;> nofun

@[simp] theorem decodeZeroBits_ne_unknown (bits : List Bool) (why : UnknownReason) :
    decodeZeroBits x bits i ≠ .unknown why := by
  unfold decodeZeroBits
  split
  · split_ifs <;> nofun
  · nofun

theorem decodeCustom0_published_ne_unknown (why : UnknownReason) : decodeCustom0 .published w ≠ .unknown why := by
  have listed : ∀ f2 : BitVec 2, f2 = 0b01#2 ∨ f2 = 0b00#2 ∨ f2 = 0b10#2 ∨ f2 = 0b11#2 := by decide
  unfold decodeCustom0
  rcases listed (w.extractLsb 13 12) with code | code | code | code <;> simp [code, Codes.published]

theorem decodeCustom1_published_ne_unknown (why : UnknownReason) :
    decodeCustom1 x lw .published w ≠ .unknown why := by
  have listed : ∀ f3 : BitVec 3, f3 = 0b010#3 ∨ f3 = 0b111#3 ∨ f3 = 0b000#3 ∨ f3 = 0b001#3 ∨ f3 = 0b011#3 ∨
      f3 = 0b100#3 ∨ f3 = 0b101#3 ∨ f3 = 0b110#3 := by decide
  unfold decodeCustom1
  rcases listed (w.extractLsb 14 12) with code | code | code | code | code | code | code | code <;>
    simp [code, Codes.published]

theorem decodeLea_published_eq_unknown :
    (∃ why, decodeLea x .published w = .unknown why) ↔
      (w.extractLsb 31 25).toNat < 5 ∨ 11 < (w.extractLsb 31 25).toNat := by
  have listed : ∀ f7 : BitVec 7, f7.toNat < 5 ∨ 11 < f7.toNat ↔
      ¬ (f7 = 5#7 ∨ f7 = 6#7 ∨ f7 = 7#7 ∨ f7 = 8#7 ∨ f7 = 9#7 ∨ f7 = 10#7 ∨ f7 = 11#7) := by decide
  rw [listed]
  unfold decodeLea
  dsimp only
  split_ifs with code code code code code code code <;> simp_all [Codes.published]

theorem decodeCustom2_published_eq_unknown :
    (∃ why, decodeCustom2 x .published w = .unknown why) ↔
      w.extractLsb 14 12 = 0b001#3 ∨ w.extractLsb 14 12 = 0b100#3 ∨
        (w.extractLsb 14 12 = 0b000#3 ∧ ((w.extractLsb 31 25).toNat < 5 ∨ 11 < (w.extractLsb 31 25).toNat)) := by
  have listed : ∀ f3 : BitVec 3, f3 = 0b000#3 ∨ f3 = 0b010#3 ∨ f3 = 0b011#3 ∨ f3 = 0b101#3 ∨ f3 = 0b110#3 ∨
      f3 = 0b111#3 ∨ f3 = 0b001#3 ∨ f3 = 0b100#3 := by decide
  rw [← decodeLea_published_eq_unknown (x := x)]
  unfold decodeCustom2
  rcases listed (w.extractLsb 14 12) with code | code | code | code | code | code | code | code <;>
    simp [code]

theorem decode_published_eq_unknown :
    (∃ why, decode x lw .published w = .unknown why) ↔
      (w.extractLsb 6 0 ≠ 0b0001011#7 ∧ w.extractLsb 6 0 ≠ 0b0101011#7 ∧ w.extractLsb 6 0 ≠ 0b1011011#7) ∨
      (w.extractLsb 6 0 = 0b1011011#7 ∧
        (w.extractLsb 14 12 = 0b001#3 ∨ w.extractLsb 14 12 = 0b100#3 ∨
          (w.extractLsb 14 12 = 0b000#3 ∧
            ((w.extractLsb 31 25).toNat < 5 ∨ 11 < (w.extractLsb 31 25).toNat)))) := by
  rw [← decodeCustom2_published_eq_unknown (x := x)]
  unfold decode
  dsimp only
  split_ifs with major major major
  · simp [major, decodeCustom0_published_ne_unknown]
  · simp [major, decodeCustom1_published_ne_unknown]
  · simp [major]
  · simp [*]

end Sys2Proof

namespace Sys2Proof.Machine

variable {x : XLen} {h : Hart x} {i : Instr}

/-! ## An instruction that does not exist stops in its check (rules R91, R93, R148) -/

theorem Hart.onlyRv64_of_not_widthOk {k : Result (Hart x)} (no : ¬ i.WidthOk x) :
    h.onlyRv64 i k = h.raiseIllegal i := by
  cases x with
  | rv32 => rfl
  | rv64 => exact absurd (fun _ => rfl) no

theorem Hart.onlyPositions_of_not_positionsOk {k : Result (Hart x)} (no : ¬ i.PositionsOk x) :
    h.onlyPositions i k = h.raiseIllegal i :=
  if_neg (by simpa [Instr.PositionsOk] using no)

theorem Hart.onlyLwugp_of_not_lwugpOk {k : Result (Hart x)} (no : ¬ i.LwugpOk x h.launch.lwugpOnRv32) :
    h.onlyLwugp i k = h.raiseIllegal i := by
  refine if_pos ⟨?_, ?_⟩
  · cases x with
    | rv32 => rfl
    | rv64 => exact absurd (fun _ => .inl rfl) no
  · cases mode : h.launch.lwugpOnRv32 with
    | illegal => rfl
    | legal => exact absurd (fun _ => .inr mode) no

theorem hartMeaning_of_not_wellFormed (no : ¬ i.WellFormed x h.launch.lwugpOnRv32) :
    hartMeaning i h = h.raiseIllegal i := by
  cases i with
  | ldgp | sdgp | leaBZe | leaHZe | leaWZe | leaDZe =>
    exact Hart.onlyRv64_of_not_widthOk fun ok => no ⟨ok, nofun, nofun⟩
  | bbc | bbs | bfoz | bfos => exact Hart.onlyPositions_of_not_positionsOk fun ok => no ⟨nofun, ok, nofun⟩
  | lwugp => exact Hart.onlyLwugp_of_not_lwugpOk fun ok => no ⟨nofun, nofun, ok⟩
  | lbgp | lbugp | lhgp | lhugp | lwgp | sbgp | shgp | swgp | addigp | beqc | bnec | leaH | leaW | leaD =>
    exact absurd ⟨nofun, nofun, nofun⟩ no

end Sys2Proof.Machine

section
open Sys2Proof Sys2Proof.Machine

/-- Settles O43: the row of the instruction answers its word, and a well-formed instruction passes the three checks. -/
theorem decodeOfEncodeIsTheInstruction : Obligations.DecodeOfEncodeIsTheInstruction :=
  fun _ _ _ i distinct wf => (decode_encode distinct i).trans (Instr.decodedAt_of_wellFormed wf)

/-- Settles O44: each branch of the decoder answers a row whose encoding the word is. -/
theorem encodeOfDecodeIsTheWord : Obligations.EncodeOfDecodeIsTheWord :=
  fun _ _ _ _ _ e => encode_of_decode e

/-- Settles O45: each row is answered with its checks, so an instruction comes out only where it passes them. -/
theorem decodingYieldsWellFormedInstructions : Obligations.DecodingYieldsWellFormedInstructions :=
  fun _ _ _ _ _ e => wellFormed_of_decode e

/-- Settles O9: the check an instruction fails is the first thing its meaning does. -/
theorem illFormedInstructionsRaiseIllegal : Obligations.IllFormedInstructionsRaiseIllegal :=
  fun _ _ _ no => exec_eq_fault.mpr (hartMeaning_of_not_wellFormed no)

/-- Settles O31: the offset field is that of the word, and a branch goes to its target or past itself. -/
theorem branchWordsEncodeTheirTarget : Obligations.BranchWordsEncodeTheirTarget := by
  intro x h h' insn i e isBranch off
  obtain ⟨imm, field⟩ := Option.ne_none_iff_exists'.mp isBranch
  have target : off = branchOffset x imm := by
    rw [← immBranch_of_decode e field]
    rfl
  rw [target]
  refine ⟨branchOffset_even imm, fun run => ?_⟩
  rcases exec_hart_shape run with writes | jumps | stores
  · exact absurd writes.branchField_eq isBranch
  · obtain ⟨imm', field', past | jumped⟩ := jumps.pc_cases
    · exact .inr past
    · cases field.symm.trans field'
      exact .inl jumped
  · exact absurd stores.branchField_eq isBranch

/-- Settles O46: the rows of the printed codes; on RV32 a position whose high bit is zero is its five low bits. -/
theorem decodeReadsTheWellFormedFormats : Obligations.DecodeReadsTheWellFormedFormats := by
  intro lw c w rd rs1 rs2 imm cimm7 five six bitIndex imm19
  refine ⟨fun major => ⟨fun code x => ?beqc, fun code x => ?bnec, fun code => ⟨?bfoz64, fun bit31 bit25 => ?bfoz32⟩,
    fun code => ⟨?bfos64, fun bit31 bit25 => ?bfos32⟩, fun code bit30 => ⟨?bbc64, fun bit7 => ?bbc32⟩,
    fun code bit30 => ⟨?bbs64, fun bit7 => ?bbs32⟩⟩, fun major code => ?sdgp⟩
  case beqc => exact decode_beqc x lw c major code
  case bnec => exact decode_bnec x lw c major code
  case bfoz64 => exact decode_bfoz .rv64 lw c major code
  case bfoz32 =>
    rw [decode_bfoz .rv32 lw c major code, bit31, bit25, msbBF_eq_five bit31, lsbBF_eq_five bit25]
    rfl
  case bfos64 => exact decode_bfos .rv64 lw c major code
  case bfos32 =>
    rw [decode_bfos .rv32 lw c major code, bit31, bit25, msbBF_eq_five bit31, lsbBF_eq_five bit25]
    rfl
  case bbc64 | bbs64 =>
    rw [decode_BB .rv64 lw c major code, bit30]
    rfl
  case bbc32 | bbs32 =>
    rw [decode_BB .rv32 lw c major code, bit30, bit7, cimmBB_eq_five bit7]
    rfl
  case sdgp => exact decode_sdgp .rv64 lw c major code

/-- Settles O47: the rows of formats BF and BB are answered after the check of their zero bits. -/
theorem rv32ZeroBitsMustBeZero : Obligations.Rv32ZeroBitsMustBeZero := by
  intro lw c w major
  refine ⟨fun code set => ?BF, fun code set => ?BB⟩
  case BF =>
    have any : [w.getLsbD 31, w.getLsbD 25].any id = true := by simpa using set
    rcases code with code | code
    · exact (decode_bfoz .rv32 lw c major code).trans (if_pos any)
    · exact (decode_bfos .rv32 lw c major code).trans (if_pos any)
  case BB => exact (decode_BB .rv32 lw c major code).trans (if_pos (by simpa using set))

/-- Settles O48: the row of the instruction answers its word, and on RV32 it fails the check of its width. -/
theorem rv64OnlyWordsAreIllegalOnRv32 : Obligations.Rv64OnlyWordsAreIllegalOnRv32 :=
  fun _ _ i distinct only => (decode_encode distinct i).trans (Instr.decodedAt_of_rv64Only only)

/-- Settles O49: the published codes leave only these words unlisted. -/
theorem unlistedWordsAreUnknown : Obligations.UnlistedWordsAreUnknown :=
  fun _ _ _ => decode_published_eq_unknown

/-- Settles O53: a word with the code of a row is the encoding of its own fields, so it decodes to them. -/
theorem decodeReadsTheRecoveredFormats : Obligations.DecodeReadsTheRecoveredFormats := by
  intro x lw c w distinct rd rs1 rs2 gb gsb gh gw gd gsh gsw reads
  have row {i : Instr} (word : encode c i = w) (wf : i.WellFormed x lw) : reads i := by
    show decode x lw c w = .instr i
    rw [← word, decode_encode distinct, Instr.decodedAt_of_wellFormed wf]
  refine ⟨fun major => ?custom0, fun major => ?custom1, fun major group => ⟨?leaD, ?leaZe⟩⟩
  case custom0 =>
    exact ⟨fun code => row (encGB_of_code major code) ⟨nofun, nofun, nofun⟩,
      fun code => row (encGB_of_code major code) ⟨nofun, nofun, nofun⟩,
      fun code => row (encGSB_of_code major code) ⟨nofun, nofun, nofun⟩⟩
  case custom1 =>
    exact ⟨fun code => row (encGH_of_code major code) ⟨nofun, nofun, nofun⟩,
      fun code => row (encGH_of_code major code) ⟨nofun, nofun, nofun⟩,
      fun code => row (encGW_of_code major code) ⟨nofun, nofun, nofun⟩,
      fun code legal => row (encGW_of_code major code) ⟨nofun, nofun, fun _ => legal⟩,
      fun code rv64 => row (encGD_of_code major code) ⟨fun _ => rv64, nofun, nofun⟩,
      fun code => row (encGSH_of_code major code) ⟨nofun, nofun, nofun⟩,
      fun code => row (encGSW_of_code major code) ⟨nofun, nofun, nofun⟩⟩
  case leaD => exact fun code => row (encR_of_code major group code) ⟨nofun, nofun, nofun⟩
  case leaZe =>
    intro rv64
    refine ⟨?_, ?_, ?_, ?_⟩ <;>
      exact fun code => row (encR_of_code major group code) ⟨fun _ => rv64, nofun, nofun⟩

end

/-! # Proofs for the ADDIGP family: the row of its printed code, and the sample words -/

namespace Sys2Proof

variable {w : BitVec 32}

/-- The row of ADDIGP, read whatever the parameters are since its code is printed (rule R85). -/
theorem decode_addigp (x : XLen) (lw : LwugpOnRv32) (c : Codes) (major : w.extractLsb 6 0 = 0b0001011#7)
    (code : w.extractLsb 13 12 = 0b01#2) : decode x lw c w = .instr (.addigp (rdOf w) (immGB w)) := by
  simp [decode, decodeCustom0, major, code]

end Sys2Proof

section
open Sys2Proof Sys2Proof.Machine

/-- Settles O18: its word is the row of a printed code, and its meaning is the end of a register instruction with no
check before it. -/
theorem addigpAddsToGp : Obligations.AddigpAddsToGp := by
  refine ⟨fun x lw c w major code => ?encoding, fun x h rd imm => ?effect⟩
  case encoding => exact decode_addigp x lw c major code
  case effect => exact exec_of_result (h.finish_result rd (h.readReg gp + sext x imm))

/-- Settles O50: six closed words, one per family, each read by evaluating the decoder. -/
theorem sampleWordsDecode : Obligations.SampleWordsDecode := by
  unfold Obligations.SampleWordsDecode
  decide

end

/-! # Proofs for the branch family: the condition of each branch, and what a branch on it does -/

namespace Sys2Proof.Machine

variable {x : XLen} {h : Hart x} {i j : Instr} {imm : BitVec 10} {rs1 : Reg} {c d : Prop} [Decidable c] [Decidable d]

/-! ## The branch of each instruction, on its condition (rules R122 to R125) -/

theorem hartMeaning_bbc {cimm : Fin 64} (below : cimm.val < x.bits) : hartMeaning (.bbc rs1 cimm imm) h =
    h.branch (decide ((h.readReg rs1).getLsbD cimm.val = false)) (branchOffset x imm) := by
  rw [← Bool.beq_eq_decide_eq]
  exact Hart.onlyPositions_of_single rfl below

theorem hartMeaning_bbs {cimm : Fin 64} (below : cimm.val < x.bits) : hartMeaning (.bbs rs1 cimm imm) h =
    h.branch (decide ((h.readReg rs1).getLsbD cimm.val = true)) (branchOffset x imm) := by
  rw [← Bool.beq_eq_decide_eq]
  exact Hart.onlyPositions_of_single rfl below

theorem hartMeaning_beqc (cimm : BitVec 7) : hartMeaning (.beqc rs1 cimm imm) h =
    h.branch (decide ((h.readReg rs1).toNat = cimm.toNat)) (branchOffset x imm) := by
  rw [← equalsConstant_eq]
  rfl

theorem hartMeaning_bnec (cimm : BitVec 7) : hartMeaning (.bnec rs1 cimm imm) h =
    h.branch (decide ((h.readReg rs1).toNat ≠ cimm.toNat)) (branchOffset x imm) := by
  rw [decide_not, ← equalsConstant_eq, ← differsFromConstant_eq]
  rfl

/-! ## What a branch on a condition does (rules R120, R121) -/

theorem branchOffset_toInt (x : XLen) (imm : BitVec 10) : (branchOffset x imm).toInt = 2 * imm.toInt := by
  have fits : 11 ≤ x.bits := by cases x <;> decide
  exact (BitVec.toInt_signExtend_of_le fits).trans (append_zeros_toInt (n := 9) (k := 1) imm)

theorem Hart.setPc_jumpResult (h : Hart x) (t : Word x) : h.JumpResult (h.setPc t) t :=
  ⟨fun _ => rfl, rfl, fun _ => rfl, rfl⟩

theorem Hart.branch_of_misaligned {off : Word x} (misaligned : (h.pc + off).toNat % h.launch.ialign.bytes ≠ 0) :
    h.branch true off = .fault (.instructionAddressMisaligned h.pc.toNat (h.pc + off).toNat) :=
  if_neg misaligned

section
variable (run : hartMeaning i h = h.branch (decide c) (branchOffset x imm))
include run

theorem exec_branch_of_aligned (ok : c → (h.pc + branchOffset x imm).toNat % h.launch.ialign.bytes = 0) :
    exec i ⟨x, h⟩ = .next ⟨x, h.setPc (if c then h.pc + branchOffset x imm else h.pc + 4)⟩ := by
  rw [exec_eq_next, run, Hart.branch_result fun taken => ok (of_decide_eq_true taken)]
  simp only [decide_eq_true_eq]

theorem exec_branch_jumpResult (ok : c → (h.pc + branchOffset x imm).toNat % h.launch.ialign.bytes = 0) :
    ∃ h', exec i ⟨x, h⟩ = .next ⟨x, h'⟩ ∧
      h.JumpResult h' (if c then h.pc + branchOffset x imm else h.pc + 4) :=
  ⟨_, exec_branch_of_aligned run ok, h.setPc_jumpResult _⟩

theorem exec_branch_of_misaligned (taken : c)
    (misaligned : (h.pc + branchOffset x imm).toNat % h.launch.ialign.bytes ≠ 0) :
    exec i ⟨x, h⟩ =
      .fault (.instructionAddressMisaligned h.pc.toNat (h.pc + branchOffset x imm).toNat) := by
  rw [exec_eq_fault, run, decide_eq_true taken, Hart.branch_of_misaligned misaligned]

/-- Of two branches on opposite conditions to one aligned target, exactly one goes there. -/
theorem exec_branch_opposite (run' : hartMeaning j h = h.branch (decide d) (branchOffset x imm)) (opposite : d ↔ ¬ c)
    (aligned : (h.pc + branchOffset x imm).toNat % h.launch.ialign.bytes = 0) :
    (exec i ⟨x, h⟩ = .next ⟨x, h.setPc (h.pc + branchOffset x imm)⟩ ∧
      exec j ⟨x, h⟩ = .next ⟨x, h.setPc (h.pc + 4)⟩) ∨
    (exec i ⟨x, h⟩ = .next ⟨x, h.setPc (h.pc + 4)⟩ ∧
      exec j ⟨x, h⟩ = .next ⟨x, h.setPc (h.pc + branchOffset x imm)⟩) := by
  rw [exec_branch_of_aligned run fun _ => aligned, exec_branch_of_aligned run' fun _ => aligned]
  by_cases taken : c
  · have not_d : ¬ d := fun hd => opposite.mp hd taken
    rw [if_pos taken, if_neg not_d]
    exact .inl ⟨rfl, rfl⟩
  · rw [if_neg taken, if_pos (opposite.mpr taken)]
    exact .inr ⟨rfl, rfl⟩

end

end Sys2Proof.Machine

section
open Sys2Proof Sys2Proof.Machine

/-- Settles O25: the offset is twice its 10-bit field, and each branch is the shared shape on its condition. -/
theorem branchesJumpWhenTheirConditionHolds : Obligations.BranchesJumpWhenTheirConditionHolds := by
  intro x h rs1 imm off aligned
  refine ⟨?range, fun cimm below => ?bbc, fun cimm below => ?bbs, fun cimm => ?beqc, fun cimm => ?bnec⟩
  case range =>
    have twice : off.toInt = 2 * imm.toInt := branchOffset_toInt x imm
    have low := imm.le_toInt
    have high := imm.toInt_lt
    omega
  case bbc => exact exec_branch_jumpResult (hartMeaning_bbc below)
  case bbs => exact exec_branch_jumpResult (hartMeaning_bbs below)
  case beqc => exact exec_branch_jumpResult (hartMeaning_beqc cimm)
  case bnec => exact exec_branch_jumpResult (hartMeaning_bnec cimm)

/-- Settles O26: each branch is the shared shape on its condition, whose alignment check fails where it is taken. -/
theorem takenBranchToMisalignedTargetFaults : Obligations.TakenBranchToMisalignedTargetFaults := by
  intro x h rs1 imm t misaligned
  refine ⟨fun cimm below taken => ?bbc, fun cimm below taken => ?bbs, fun cimm taken => ?beqc,
    fun cimm taken => ?bnec⟩
  case bbc => exact exec_branch_of_misaligned (hartMeaning_bbc below) taken misaligned
  case bbs => exact exec_branch_of_misaligned (hartMeaning_bbs below) taken misaligned
  case beqc => exact exec_branch_of_misaligned (hartMeaning_beqc cimm) taken misaligned
  case bnec => exact exec_branch_of_misaligned (hartMeaning_bnec cimm) taken misaligned

/-- Settles O28: a bit is set where it is not clear, and BNEC asks the negation of what BEQC asks. -/
theorem complementaryBranches : Obligations.ComplementaryBranches := by
  intro x h rs1 imm t goes aligned
  refine ⟨fun cimm below => ?bits, fun cimm => ?constants⟩
  case bits =>
    exact exec_branch_opposite (hartMeaning_bbc below) (hartMeaning_bbs below) (Bool.not_eq_false _).symm.to_iff aligned
  case constants => exact exec_branch_opposite (hartMeaning_beqc cimm) (hartMeaning_bnec cimm) Iff.rfl aligned

end

/-! # Proofs for the bit-field family: the bits of a result, against the table of rule R130 -/

namespace Sys2Proof.Machine

variable {x : XLen} {extend : {n : Nat} → BitVec n → Word x} {fill : Bool} {s : Word x} {msb lsb k i : Nat}

/-! ## The three operations of the table (rule R130) -/

theorem pcodeBit_insertBit (fill : Bool) (s : Word x) (lsb i : Nat) :
    pcodeBit fill s 0 lsb i = if i = lsb then s.getLsbD 0 else if lsb < i then fill && s.getLsbD 0 else false :=
  if_pos rfl

theorem pcodeBit_insert (fill : Bool) (s : Word x) (i : Nat) (pos : 0 < msb) (insert : msb < lsb) :
    pcodeBit fill s msb lsb i =
      if msb ≤ i ∧ i ≤ lsb then s.getLsbD (i - msb) else if lsb < i then fill && s.getLsbD (lsb - msb) else false := by
  rw [pcodeBit, if_neg pos.ne', if_pos insert]

theorem pcodeBit_extract (fill : Bool) (s : Word x) (i : Nat) (pos : 0 < msb) (extract : lsb ≤ msb) :
    pcodeBit fill s msb lsb i = if i ≤ msb - lsb then s.getLsbD (lsb + i) else fill && s.getLsbD msb := by
  rw [pcodeBit, if_neg pos.ne', if_neg extract.not_gt]

/-! ## The two extensions of a field (rule R131) -/

/-- `extend` keeps the bits of a field and sets the bits above it: to copies of the field's top bit where `fill` holds
(BFOS), else to zeros (BFOZ). -/
def FillsAbove (extend : {n : Nat} → BitVec n → Word x) (fill : Bool) : Prop :=
  ∀ (n : Nat) (v : BitVec n) (i : Nat), i < x.bits → (extend v).getLsbD i = if i < n then v.getLsbD i else fill && v.msb

theorem zext_fillsAbove (x : XLen) : FillsAbove (zext x) false := by
  intro n v i below
  change (v.setWidth x.bits).getLsbD i = _
  rw [BitVec.getLsbD_setWidth, decide_eq_true below, Bool.true_and, Bool.false_and]
  split
  · rfl
  · next above => exact BitVec.getLsbD_of_ge v i (not_lt.mp above)

theorem sext_fillsAbove (x : XLen) : FillsAbove (sext x) true := by
  intro n v i below
  change (v.signExtend x.bits).getLsbD i = _
  rw [BitVec.getLsbD_signExtend, decide_eq_true below, Bool.true_and, Bool.true_and]

/-- The bits of an extended field of `n + 1` bits, read from the word it is taken from. -/
theorem FillsAbove.getLsbD_field (ext : FillsAbove extend fill) (s : Word x) (p n : Nat) (below : i < x.bits) :
    (extend (s.extractLsb' p (n + 1))).getLsbD i =
      if i ≤ n then s.getLsbD (p + i) else fill && s.getLsbD (p + n) := by
  have top : (s.extractLsb' p (n + 1)).msb = s.getLsbD (p + n) := by
    simp [BitVec.msb_eq_getLsbD_last]
  have bit := ext (n + 1) (s.extractLsb' p (n + 1)) i below
  rw [top, BitVec.getLsbD_extractLsb'] at bit
  refine bit.trans ?_
  simp only [Nat.lt_succ_iff]
  split
  · next inside => rw [decide_eq_true inside, Bool.true_and]
  · rfl

/-- The same field placed at bit `d`: zeros below it. -/
theorem FillsAbove.getLsbD_field_shiftLeft (ext : FillsAbove extend fill) (s : Word x) (p n d : Nat)
    (below : i < x.bits) : (extend (s.extractLsb' p (n + 1)) <<< d).getLsbD i =
      if i < d then false else if i - d ≤ n then s.getLsbD (p + (i - d)) else fill && s.getLsbD (p + n) := by
  rw [BitVec.getLsbD_shiftLeft, ext.getLsbD_field s p n (by omega)]
  simp [below]

/-! ## The one-value result of rule R131 against the table -/

theorem FillsAbove.getLsbD_bitField (ext : FillsAbove extend fill) (s : Word x) (msb lsb : Nat) (below : i < x.bits) :
    (bitField extend s msb lsb).getLsbD i = pcodeBit fill s msb lsb i := by
  obtain rfl | pos := Nat.eq_zero_or_pos msb
  · rw [pcodeBit_insertBit, bitField, if_pos rfl, ext.getLsbD_field_shiftLeft s 0 0 lsb below]
    grind
  obtain insert | extract := lt_or_ge msb lsb
  · rw [pcodeBit_insert fill s i pos insert, bitField, if_neg pos.ne', if_pos insert,
      ext.getLsbD_field_shiftLeft s 0 (lsb - msb) msb below]
    grind
  · rw [pcodeBit_extract fill s i pos extract, bitField, if_neg pos.ne', if_neg extract.not_gt,
      ext.getLsbD_field s lsb (msb - lsb) below, Nat.add_sub_cancel' extract]

/-- A word with the bits of the table is the result. -/
theorem FillsAbove.bitField_eq (ext : FillsAbove extend fill) {v : Word x}
    (bits : ∀ i, i < x.bits → pcodeBit fill s msb lsb i = v.getLsbD i) : bitField extend s msb lsb = v :=
  BitVec.eq_of_getLsbD_eq fun i below => (ext.getLsbD_bitField s msb lsb below).trans (bits i below)

/-- Where both positions are below the width the check of the positions passes, and the result has the bits of the
table. -/
theorem exec_bitField {j : Instr} {h : Hart x} {rd rs1 : Reg} {m l : Fin 64} (positions : j.positions = [m, l])
    (hm : m.val < x.bits) (hl : l.val < x.bits) (ext : FillsAbove extend fill)
    (run : hartMeaning j h = h.onlyPositions j (h.finish rd (bitField extend (h.readReg rs1) m.val l.val))) :
    ∃ (h' : Hart x) (v : Word x), exec j ⟨x, h⟩ = .next ⟨x, h'⟩ ∧ h.RegisterResult h' rd v ∧
      ∀ i : Nat, i < x.bits → v.getLsbD i = pcodeBit fill (h.readReg rs1) m.val l.val i := by
  have ok : j.PositionsOk x := by simpa [Instr.PositionsOk, positions] using ⟨hm, hl⟩
  rw [Hart.onlyPositions_ok ok] at run
  obtain ⟨h', done, result⟩ := h.finish_result rd (bitField extend (h.readReg rs1) m.val l.val)
  exact ⟨h', _, exec_eq_next.mpr (run.trans done), result, fun i below => ext.getLsbD_bitField _ _ _ below⟩

/-! ## The table at the corner cases of rules R132 and R133 -/

/-- With `msb = XLEN-1` the table is a right shift by `lsb`, filled with the top bit of the source or with zeros. -/
theorem pcodeBit_top (fill : Bool) (s : Word x) (i : Nat) (hk : k < x.bits) :
    pcodeBit fill s (x.bits - 1) k i = if k + i < x.bits then s.getLsbD (k + i) else fill && s.msb := by
  have wide : 0 < x.bits - 1 := by cases x <;> decide
  have inside : i ≤ x.bits - 1 - k ↔ k + i < x.bits := by omega
  rw [pcodeBit_extract fill s i wide (by omega), BitVec.msb_eq_getLsbD_last]
  simp only [inside]

/-- With `0 < msb < lsb = XLEN-1` the table is a left shift by `msb`: no bit is above the field. -/
theorem pcodeBit_toTop (fill : Bool) (s : Word x) (pos : 0 < k) (hk : k < x.bits - 1) (below : i < x.bits) :
    pcodeBit fill s k (x.bits - 1) i = (s <<< k).getLsbD i := by
  have within : i ≤ x.bits - 1 := by omega
  rw [pcodeBit_insert fill s i pos hk, BitVec.getLsbD_shiftLeft]
  obtain under | field := lt_or_ge i k
  · simp [under, under.not_ge, within.not_gt]
  · simp [below, field, field.not_gt, within]

/-- With `msb = lsb > 0` the field is one bit, which a sign extension copies to every other. -/
theorem pcodeBit_single (s : Word x) (i : Nat) (pos : 0 < k) : pcodeBit true s k k i = s.getLsbD k := by
  rw [pcodeBit_extract true s i pos le_rfl, Bool.true_and, Nat.sub_self]
  split
  · next first => rw [Nat.le_zero.mp first, Nat.add_zero]
  · rfl

/-! ## The width (rule R134) -/

/-- Of the source the table reads only bits up to `msb` or up to the bit asked for. -/
theorem pcodeBit_congr {y : XLen} {t : Word y} {n : Nat} (fill : Bool) (same : ∀ j, j < n → s.getLsbD j = t.getLsbD j)
    (hm : msb < n) (hi : i < n) : pcodeBit fill s msb lsb i = pcodeBit fill t msb lsb i := by
  obtain rfl | pos := Nat.eq_zero_or_pos msb
  · rw [pcodeBit_insertBit, pcodeBit_insertBit, same 0 hm]
  obtain insert | extract := lt_or_ge msb lsb
  · rw [pcodeBit_insert fill s i pos insert, pcodeBit_insert fill t i pos insert]
    grind
  · rw [pcodeBit_extract fill s i pos extract, pcodeBit_extract fill t i pos extract]
    grind

/-- Two extensions with one fill, one for each width, give results with the same low 32 bits. -/
theorem bitField_setWidth {extend32 : {n : Nat} → BitVec n → Word .rv32} {extend64 : {n : Nat} → BitVec n → Word .rv64}
    (ext32 : FillsAbove extend32 fill) (ext64 : FillsAbove extend64 fill) (s : BitVec 64) (lsb : Nat) (hm : msb < 32) :
    bitField extend32 (s.setWidth 32) msb lsb = (bitField extend64 s msb lsb).setWidth 32 := by
  have low (v : BitVec 64) (j : Nat) (hj : j < 32) : (v.setWidth 32).getLsbD j = v.getLsbD j := by simp [hj]
  refine ext32.bitField_eq fun i below => ?_
  rw [low _ i below, ext64.getLsbD_bitField s msb lsb (below.trans (by decide))]
  exact pcodeBit_congr fill (low s) hm below

end Sys2Proof.Machine

section
open Sys2Proof Sys2Proof.Machine

/-- Settles O22: both end in the one-value result of rule R131, each with the fill of its own extension. -/
theorem bitFieldOperationsWriteTheFieldAndTheFill : Obligations.BitFieldOperationsWriteTheFieldAndTheFill :=
  fun x _ _ _ _ _ hm hl =>
    ⟨exec_bitField rfl hm hl (sext_fillsAbove x) rfl, exec_bitField rfl hm hl (zext_fillsAbove x) rfl⟩

/-- Settles O23: each corner case is the word whose bits are those of the table there. -/
theorem bitFieldCornerCases : Obligations.BitFieldCornerCases := by
  intro x s k hk
  have bfoz := zext_fillsAbove x
  have bfos := sext_fillsAbove x
  refine ⟨bfoz.bitField_eq fun i below => ?logical, bfos.bitField_eq fun i below => ?arithmetic,
    fun pos inside => bfoz.bitField_eq fun i below => pcodeBit_toTop false s pos inside below,
    fun pos inside => bfos.bitField_eq fun i below => pcodeBit_toTop true s pos inside below,
    fun pos => bfos.bitField_eq fun i below => ?replicate⟩
  case logical =>
    rw [pcodeBit_top false s i hk, BitVec.getLsbD_ushiftRight, Bool.false_and]
    split
    · rfl
    · next outside => exact (BitVec.getLsbD_of_ge s (k + i) (not_lt.mp outside)).symm
  case arithmetic =>
    rw [pcodeBit_top true s i hk, BitVec.getLsbD_sshiftRight, decide_eq_false below.not_ge, Bool.true_and, Bool.not_false,
      Bool.true_and]
  case replicate =>
    rw [pcodeBit_single s i pos]
    split
    · next one => rw [one, BitVec.getLsbD_allOnes, decide_eq_true below]
    · next zero => rw [Bool.eq_false_of_not_eq_true zero]; exact BitVec.getLsbD_zero.symm

/-- Settles O24: at positions below 32 the low 32 bits of a result come from the low 32 bits of the source. -/
theorem bitFieldWidthsAgree : Obligations.BitFieldWidthsAgree :=
  fun s _ lsb hm _ =>
    ⟨bitField_setWidth (zext_fillsAbove .rv32) (zext_fillsAbove .rv64) s lsb hm,
      bitField_setWidth (sext_fillsAbove .rv32) (sext_fillsAbove .rv64) s lsb hm⟩

end

/-! # Proofs for the LEA family: the rows of the printed codes, and the scaled index as a product -/

namespace Sys2Proof

variable {w : BitVec 32}

section
variable (x : XLen) (lw : LwugpOnRv32) (c : Codes) (major : w.extractLsb 6 0 = 0b1011011#7)
  (group : w.extractLsb 14 12 = 0b000#3)
include major group

/-- The LEA group is reached by the printed codes of rule R87 alone. -/
theorem decode_leaGroup : decode x lw c w = decodeLea x c w := by
  simp [decode, decodeCustom2, major, group]

theorem decode_leaH (code : w.extractLsb 31 25 = 0b0000101#7) :
    decode x lw c w = .instr (.leaH (rdOf w) (rs1Of w) (rs2Of w)) := by
  rw [decode_leaGroup x lw c major group]
  exact if_pos code

theorem decode_leaW (code : w.extractLsb 31 25 = 0b0000110#7) :
    decode x lw c w = .instr (.leaW (rdOf w) (rs1Of w) (rs2Of w)) := by
  have notLeaH : w.extractLsb 31 25 ≠ 0b0000101#7 := by rw [code]; decide
  rw [decode_leaGroup x lw c major group]
  exact (if_neg notLeaH).trans (if_pos code)

end

end Sys2Proof

namespace Sys2Proof.Machine

variable {x : XLen} {h : Hart x} {i : Instr} {rd rs1 : Reg} {k : Nat}

/-! ## The scaled index as a product modulo `2^XLEN` (rules R160, R165) -/

theorem scaledIndex_eq_mul (index : Word x) (k : Nat) : scaledIndex index k = index * BitVec.ofNat x.bits (2 ^ k) := by
  have power : BitVec.twoPow x.bits k = BitVec.ofNat x.bits (2 ^ k) := by
    apply BitVec.eq_of_toNat_eq
    rw [BitVec.toNat_twoPow, BitVec.toNat_ofNat]
  rw [scaledIndex, BitVec.shiftLeft_eq_mul_twoPow, power]

theorem zeroExtendedIndex_eq_ofNat (v : Word x) : zeroExtendedIndex v = BitVec.ofNat x.bits (v.toNat % 2 ^ 32) := by
  apply BitVec.eq_of_toNat_eq
  simp [zeroExtendedIndex, zext]

theorem scaledIndex_zeroExtendedIndex (v : Word x) (k : Nat) :
    scaledIndex (zeroExtendedIndex v) k = BitVec.ofNat x.bits (v.toNat % 2 ^ 32 * 2 ^ k) := by
  rw [scaledIndex_eq_mul, zeroExtendedIndex_eq_ofNat, BitVec.ofNat_mul]

/-! ## What an instruction of the group leaves behind (rule R160) -/

/-- With no check before its end, an instruction of the group completes in every state. -/
theorem exec_lea {index offset : Word x} (run : hartMeaning i h = h.lea rd rs1 index k)
    (scaled : scaledIndex index k = offset) :
    ∃ h', exec i ⟨x, h⟩ = .next ⟨x, h'⟩ ∧ h.RegisterResult h' rd (h.readReg rs1 + offset) := by
  subst scaled
  apply exec_of_result
  rw [run]
  exact h.finish_result rd _

/-- A `.ze` form passes the check of its width on RV64. -/
theorem exec_leaZe {h : Hart .rv64} {v offset : Word .rv64}
    (run : hartMeaning i h = h.onlyRv64 i (h.lea rd rs1 (zeroExtendedIndex v) k))
    (scaled : BitVec.ofNat 64 (v.toNat % 2 ^ 32 * 2 ^ k) = offset) :
    ∃ h', exec i ⟨.rv64, h⟩ = .next ⟨.rv64, h'⟩ ∧ h.RegisterResult h' rd (h.readReg rs1 + offset) :=
  exec_lea (run.trans (Hart.onlyRv64_ok rfl)) ((scaledIndex_zeroExtendedIndex v k).trans scaled)

end Sys2Proof.Machine

section
open Sys2Proof Sys2Proof.Machine

/-- Settles O19: their words are rows of printed codes, and a left shift by 1 or 2 is a product by 2 or 4. -/
theorem leaHalfAndWordAddTheScaledIndex : Obligations.LeaHalfAndWordAddTheScaledIndex := by
  refine ⟨fun x lw c w major group => ⟨fun code => ?leaHWord, fun code => ?leaWWord⟩,
    fun x h rd rs1 rs2 => ⟨?leaH, ?leaW⟩⟩
  case leaHWord => exact decode_leaH x lw c major group code
  case leaWWord => exact decode_leaW x lw c major group code
  case leaH => exact exec_lea rfl (scaledIndex_eq_mul (h.readReg rs2) 1)
  case leaW => exact exec_lea rfl (scaledIndex_eq_mul (h.readReg rs2) 2)

/-- Settles O20: the shared shape of the group, with a left shift by 3 as a product by 8. -/
theorem leaDoubleAddsTheScaledIndex : Obligations.LeaDoubleAddsTheScaledIndex :=
  fun _ h _ _ rs2 => exec_lea rfl (scaledIndex_eq_mul (h.readReg rs2) 3)

/-- Settles O21: past the check of the width each form is the shared shape, on an index scaled as a number. -/
theorem leaZeAddsZeroExtendedIndex : Obligations.LeaZeAddsZeroExtendedIndex := by
  intro h rd rs1 rs2
  refine ⟨?byte, ?half, ?word, ?double⟩
  case byte => exact exec_leaZe rfl (congrArg (BitVec.ofNat 64) (Nat.mul_one _))
  case half => exact exec_leaZe rfl rfl
  case word => exact exec_leaZe rfl rfl
  case double => exact exec_leaZe rfl rfl

end

/-! # Proofs for the exceptions family: the stops of a step, and which faults an instruction raises -/

namespace Sys2Proof.Machine

variable {x : XLen} {h : Hart x} {i : Instr} {insn : BitVec 32} {f : Fault}

/-! ## A fetch that stops (rules R183, R216; log entries 17, 27) -/

/-- Reading bytes answers nothing where one of them holds no value. -/
theorem Memory.readBytes_of_valueless {m : Memory} {a n : Nat} (valueless : ∃ k, k < n ∧ m.read (a + k) = none) :
    m.readBytes a n = none := by
  obtain ⟨k, below, none_there⟩ := valueless
  cases read : m.readBytes a n with
  | none => rfl
  | some bs =>
    obtain ⟨length, bytes⟩ := Memory.readBytes_eq_some.mp read
    exact absurd (none_there.symm.trans (bytes k (length ▸ below))) (by simp)

theorem Launch.fetchable_iff {l : Launch} {pc : Nat} :
    l.fetchable pc = true ↔ l.admits .fetch .word pc = true ∧ pc ∈ l.text := by
  simp [Launch.fetchable]

theorem Hart.fetch_of_not_fetchable (no : ¬ h.launch.fetchable h.pc.toNat = true) :
    h.fetch = .fault (.instructionAccessFault h.pc.toNat h.pc.toNat) :=
  if_neg no

section
variable (fetchable : h.launch.fetchable h.pc.toNat = true)
include fetchable

theorem Hart.fetch_of_wraps (wraps : 2 ^ x.bits < h.pc.toNat + 4) :
    h.fetch = .refused (.wrapsAddressSpace h.pc.toNat) := by
  rw [Hart.fetch, if_pos fetchable, if_pos wraps]

theorem Hart.fetch_of_valueless (fits : h.pc.toNat + 4 ≤ 2 ^ x.bits)
    (valueless : ∃ k, k < 4 ∧ h.mem.read (h.pc.toNat + k) = none) :
    h.fetch = .refused (.noValueInMemory h.pc.toNat) := by
  rw [Hart.fetch, if_pos fetchable, if_neg (Nat.not_lt.mpr fits), Memory.readBytes_of_valueless valueless]

end

/-- The only fault of a fetch (rule R183). -/
theorem Hart.fetch_eq_fault (e : h.fetch = .fault f) : f = .instructionAccessFault h.pc.toNat h.pc.toNat := by
  unfold Hart.fetch at e
  split at e
  · split at e
    · cases e
    · split at e <;> cases e
  · cases e
    rfl

/-! ## A decoding that stops (rules R3, R92, R183) -/

theorem Hart.decodeAdmitted_of_illegal {why : IllegalReason}
    (hd : decode x h.launch.lwugpOnRv32 h.launch.codes insn = .illegal why) :
    h.decodeAdmitted insn = .fault (.illegalInstruction h.pc.toNat insn.toNat) := by
  rw [Hart.decodeAdmitted, hd]
  rfl

theorem Hart.decodeAdmitted_of_unknown {why : UnknownReason}
    (hd : decode x h.launch.lwugpOnRv32 h.launch.codes insn = .unknown why) :
    h.decodeAdmitted insn = .refused (.unknownEncoding insn why) := by
  rw [Hart.decodeAdmitted, hd]

theorem Hart.decodeAdmitted_of_not_admitted
    (hd : decode x h.launch.lwugpOnRv32 h.launch.codes insn = .instr i)
    (ht : h.launch.admitTier.admits i.tier = false) :
    h.decodeAdmitted insn = .refused (.tierNotAdmitted i.mnemonic) := by
  simp [Hart.decodeAdmitted, hd, ht]

/-- The only fault of decoding (rule R183). -/
theorem Hart.decodeAdmitted_eq_fault (e : h.decodeAdmitted insn = .fault f) :
    f = .illegalInstruction h.pc.toNat insn.toNat := by
  cases hd : decode x h.launch.lwugpOnRv32 h.launch.codes insn with
  | illegal why =>
    rw [Hart.decodeAdmitted_of_illegal hd] at e
    cases e
    rfl
  | unknown why =>
    rw [Hart.decodeAdmitted_of_unknown hd] at e
    cases e
  | instr i =>
    cases ht : h.launch.admitTier.admits i.tier with
    | true =>
      rw [Hart.decodeAdmitted_of_admits hd ht] at e
      cases e
    | false =>
      rw [Hart.decodeAdmitted_of_not_admitted hd ht] at e
      cases e

/-! ## A load of a byte without a value (rules R201, R210 (e)) -/

theorem Hart.gpLoad_of_valueless {size : AccessSize} {extend : BitVec size.bits → Word x} {rd : Reg} {off : Word x}
    (accessible : h.Accessible .load size (h.gpAddress off).toNat)
    (valueless : ∃ k, k < size.bytes ∧ h.mem.read ((h.gpAddress off).toNat + k) = none) :
    h.gpLoad size extend rd off = .refused (.noValueInMemory (h.gpAddress off).toNat) := by
  rw [Hart.gpLoad, Hart.memRead, Hart.checkAccess_eq_next.mpr accessible, andThen_next,
    Memory.readBytes_of_valueless valueless]
  rfl

/-! ## The faults of the shared operations (rules R41, R42, R47, R121) -/

/-- A branch faults only at a misaligned target. -/
theorem Hart.branch_eq_fault {taken : Bool} {off : Word x} (e : h.branch taken off = .fault f) :
    f = .instructionAddressMisaligned h.pc.toNat (h.pc + off).toNat := by
  unfold Hart.branch at e
  split at e
  · split at e
    · cases e
    · cases e
      rfl
  · cases e

section
variable {kind : AccessKind} {size : AccessSize} {ea : Word x}

/-- The checks raise the misalignment fault or the access fault of their kind, and an access of one byte is never
misaligned. -/
theorem Hart.checkAccess_eq_fault (e : h.checkAccess kind size ea = .fault f) :
    (size ≠ .byte ∧ f = misalignedFault kind h.pc.toNat ea.toNat) ∨ f = accessFault kind h.pc.toNat ea.toNat := by
  unfold Hart.checkAccess at e
  split at e
  · cases e
  · split at e
    · split at e
      · cases e
      · cases e
        exact .inr rfl
    · next misaligned =>
      have not_byte : size ≠ .byte := fun same => misaligned (same ▸ Nat.mod_one _)
      split at e
      · cases e
        exact .inl ⟨not_byte, rfl⟩
      · split at e
        · cases e
        · cases e
          exact .inr rfl

theorem Hart.memRead_eq_fault (e : h.memRead size ea = .fault f) : h.checkAccess .load size ea = .fault f := by
  rcases andThen_eq_fault.mp e with check | ⟨-, -, read⟩
  · exact check
  · split at read <;> cases read

theorem Hart.memWrite_eq_fault {v : BitVec size.bits} (e : h.memWrite size ea v = .fault f) :
    h.checkAccess .store size ea = .fault f := by
  rcases andThen_eq_fault.mp e with check | ⟨-, -, write⟩
  · exact check
  · split at write <;> cases write

theorem Hart.gpStore_eq_fault {rs2 : Reg} {off : Word x} (e : h.gpStore size rs2 off = .fault f) :
    h.checkAccess .store size (h.gpAddress off) = .fault f := by
  rcases andThen_eq_fault.mp e with write | ⟨h', -, advanced⟩
  · exact Hart.memWrite_eq_fault write
  · cases advanced

end

/-! ## What an instruction can raise, said once (rules R182, R184) -/

/-- The faults of an instruction's own rule, one constructor per reason. -/
inductive Raises (h : Hart x) (i : Instr) : Fault → Prop where
  | illegal (no : ¬ i.WellFormed x h.launch.lwugpOnRv32) :
      Raises h i (.illegalInstruction h.pc.toNat (encode h.launch.codes i).toNat)
  | target {imm : BitVec 10} (field : i.branchField = some imm) :
      Raises h i (.instructionAddressMisaligned h.pc.toNat (h.pc + branchOffset x imm).toNat)
  | misaligned {kind : AccessKind} {size : AccessSize} {off : Int}
      (access : i.access h.launch.uloadOffsetExt = some (kind, size, off)) (not_byte : size ≠ .byte) :
      Raises h i (misalignedFault kind h.pc.toNat (h.dataAddress off).toNat)
  | denied {kind : AccessKind} {size : AccessSize} {off : Int}
      (access : i.access h.launch.uloadOffsetExt = some (kind, size, off)) :
      Raises h i (accessFault kind h.pc.toNat (h.dataAddress off).toNat)

/-- A memory instruction that exists faults only in the checks of its one access. -/
theorem hartMeaning_access_eq_fault {kind : AccessKind} {size : AccessSize} {off : Int}
    (access : i.access h.launch.uloadOffsetExt = some (kind, size, off)) (wf : i.WellFormed x h.launch.lwugpOnRv32)
    (m : hartMeaning i h = .fault f) : h.checkAccess kind size (h.dataAddress off) = .fault f := by
  rcases hartMeaning_access access wf with ⟨rfl, rd, -, run | run⟩ | ⟨rfl, rs2, -, run⟩ <;> rw [run] at m
  · exact Hart.memRead_eq_fault (Hart.gpLoad_eq_fault.mp m)
  · exact Hart.memRead_eq_fault (Hart.gpLoad_eq_fault.mp m)
  · exact Hart.gpStore_eq_fault m

/-- An instruction that exists, makes no access and is no branch completes (rules R12, R27). -/
theorem hartMeaning_register_completes {e : OffsetExt} (noAccess : i.access e = none)
    (noBranch : i.branchField = none) (wf : i.WellFormed x h.launch.lwugpOnRv32) :
    ∃ h', hartMeaning i h = .next h' := by
  obtain ⟨width, positions, -⟩ := wf
  cases i with
  | lbgp | lbugp | lhgp | lhugp | lwgp | lwugp | ldgp | sbgp | shgp | swgp | sdgp => cases noAccess
  | bbc | bbs | beqc | bnec => cases noBranch
  | addigp | leaH | leaW | leaD => exact ⟨_, rfl⟩
  | bfoz | bfos => exact ⟨_, Hart.onlyPositions_ok positions⟩
  | leaBZe | leaHZe | leaWZe | leaDZe => exact ⟨_, Hart.onlyRv64_ok (width rfl)⟩

/-- How an unsigned offset is extended decides the offset of an access, not its kind or size (rule R141). -/
theorem access_extension {e : OffsetExt} {kind : AccessKind} {size : AccessSize} {off : Int} (e' : OffsetExt)
    (access : i.access e = some (kind, size, off)) : ∃ off', i.access e' = some (kind, size, off') := by
  cases i <;> cases access <;> exact ⟨_, rfl⟩

theorem exec_raises (e : exec i ⟨x, h⟩ = .fault f) : Raises h i f := by
  have m := exec_eq_fault.mp e
  by_cases wf : i.WellFormed x h.launch.lwugpOnRv32
  · cases field : i.branchField with
    | some imm =>
      obtain ⟨taken, run⟩ := hartMeaning_branch field wf
      obtain rfl := Hart.branch_eq_fault (run.symm.trans m)
      exact .target field
    | none =>
      cases access : i.access h.launch.uloadOffsetExt with
      | some a =>
        obtain ⟨kind, size, off⟩ := a
        rcases Hart.checkAccess_eq_fault (hartMeaning_access_eq_fault access wf m) with ⟨not_byte, rfl⟩ | rfl
        · exact .misaligned access not_byte
        · exact .denied access
      | none =>
        obtain ⟨h', run⟩ := hartMeaning_register_completes access field wf
        cases run.symm.trans m
  · cases (hartMeaning_of_not_wellFormed wf).symm.trans m
    exact .illegal wf

/-! ## The pc and the code of a fault (rules R181, R182, R184) -/

@[simp] theorem misalignedFault_pc (kind : AccessKind) (pc info : Nat) : (misalignedFault kind pc info).pc = pc := by
  cases kind <;> rfl

@[simp] theorem accessFault_pc (kind : AccessKind) (pc info : Nat) : (accessFault kind pc info).pc = pc := by
  cases kind <;> rfl

theorem Raises.pc_eq (r : Raises h i f) : f.pc = h.pc.toNat := by
  cases r with
  | illegal | target => rfl
  | misaligned => exact misalignedFault_pc ..
  | denied => exact accessFault_pc ..

/-- Every instruction exists on RV64 (rules R89, R93, R148). -/
theorem wellFormed_rv64 (i : Instr) (lw : LwugpOnRv32) : i.WellFormed .rv64 lw :=
  ⟨fun _ => rfl, fun p _ => p.isLt, fun _ => .inl rfl⟩

/-- The faults of an access are those of the table of rule R184, and neither is `IllegalInstruction`. -/
theorem access_faultCodes {e : OffsetExt} {kind : AccessKind} {size : AccessSize} {off : Int} (lw : LwugpOnRv32)
    (pc info : Nat) (access : i.access e = some (kind, size, off)) :
    (size ≠ .byte →
      (misalignedFault kind pc info).code ∈ faultCodes x lw i ∧ (misalignedFault kind pc info).code ≠ 2) ∧
    (accessFault kind pc info).code ∈ faultCodes x lw i ∧ (accessFault kind pc info).code ≠ 2 := by
  obtain ⟨off', row⟩ := access_extension .ze access
  rcases access_kind_cases access with rfl | rfl <;>
    cases size <;> simp [faultCodes, row, misalignedFault, accessFault, Fault.code]

theorem Raises.code (r : Raises h i f) :
    f.code ∈ faultCodes x h.launch.lwugpOnRv32 i ∧ (f.code = 2 → x = .rv32) := by
  cases r with
  | illegal no =>
    refine ⟨by simp [faultCodes, no, Fault.code], fun _ => ?_⟩
    cases x with
    | rv32 => rfl
    | rv64 => exact absurd (wellFormed_rv64 i _) no
  | target field => exact ⟨by simp [faultCodes, field, Fault.code], nofun⟩
  | misaligned access not_byte =>
    obtain ⟨of_not_byte, -⟩ := access_faultCodes _ _ _ access
    obtain ⟨listed, not_illegal⟩ := of_not_byte not_byte
    exact ⟨listed, fun illegal => absurd illegal not_illegal⟩
  | denied access =>
    obtain ⟨-, listed, not_illegal⟩ := access_faultCodes _ _ _ access
    exact ⟨listed, fun illegal => absurd illegal not_illegal⟩

/-! ## The stops of a step -/

theorem step_of_ended (ended : h.launch.endPc = some h.pc.toNat) : step ⟨x, h⟩ = .next ⟨x, h⟩ :=
  if_pos (by simp [Hart.atEnd, ended])

/-- A step at a word that can be fetched begins with its decoding. -/
theorem step_of_fetches_eq_andThen (hf : h.Fetches insn) :
    step ⟨x, h⟩ = andThen (h.decodeAdmitted insn) fun i => exec i ⟨x, h⟩ := by
  rw [step_of_not_ended hf.1, Hart.fetch_of_fetches hf, andThen_next]

/-- A step that faults does so in the fetch, in the decoding or in the instruction's own rule (rule R183). -/
theorem step_eq_fault_cases (e : step ⟨x, h⟩ = .fault f) :
    h.fetch = .fault f ∨ (∃ insn, h.decodeAdmitted insn = .fault f) ∨ ∃ i, exec i ⟨x, h⟩ = .fault f := by
  have notEnded : h.launch.endPc ≠ some h.pc.toNat := fun ended => by cases (step_of_ended ended).symm.trans e
  rw [step_of_not_ended notEnded] at e
  rcases andThen_eq_fault.mp e with fetch | ⟨insn, -, e⟩
  · exact .inl fetch
  · rcases andThen_eq_fault.mp e with decoded | ⟨i, -, run⟩
    · exact .inr (.inl ⟨insn, decoded⟩)
    · exact .inr (.inr ⟨i, run⟩)

end Sys2Proof.Machine

section
open Sys2Proof Sys2Proof.Machine

/-- Settles O5: what a fetch or a decoding that stops answers is what the step answers. -/
theorem stepStopsBeforeTheInstruction : Obligations.StepStopsBeforeTheInstruction := by
  intro x h
  refine ⟨fun notEnded outside => ?outside, fun notEnded admitted inText =>
    ⟨fun wraps => ?wraps, fun fits valueless => ?valueless⟩, fun insn why hf hd => ?illegal,
    fun insn why hf hd => ?unknown, fun insn i hf hd ht => ?tier⟩
  case outside =>
    have no := mt Launch.fetchable_iff.mp outside
    rw [step_of_not_ended notEnded, Hart.fetch_of_not_fetchable no, andThen_fault]
  case wraps =>
    have fetchable := Launch.fetchable_iff.mpr ⟨admitted, inText⟩
    rw [step_of_not_ended notEnded, Hart.fetch_of_wraps fetchable wraps, andThen_refused]
  case valueless =>
    have fetchable := Launch.fetchable_iff.mpr ⟨admitted, inText⟩
    rw [step_of_not_ended notEnded, Hart.fetch_of_valueless fetchable fits valueless, andThen_refused]
  case illegal => rw [step_of_fetches_eq_andThen hf, Hart.decodeAdmitted_of_illegal hd, andThen_fault]
  case unknown => rw [step_of_fetches_eq_andThen hf, Hart.decodeAdmitted_of_unknown hd, andThen_refused]
  case tier => rw [step_of_fetches_eq_andThen hf, Hart.decodeAdmitted_of_not_admitted hd ht, andThen_refused]

/-- Settles O7: the fetch, the decoding and the instruction's own rule each raise at the pc of the one hart they are
given. -/
theorem faultsReportThePcOfTheStep : Obligations.FaultsReportThePcOfTheStep := by
  rintro ⟨x, h⟩ f e
  rcases step_eq_fault_cases e with fetch | ⟨insn, decoded⟩ | ⟨i, run⟩
  · rw [Hart.fetch_eq_fault fetch]
    rfl
  · rw [Hart.decodeAdmitted_eq_fault decoded]
    rfl
  · exact (exec_raises run).pc_eq

/-- Settles O8: each reason an instruction can raise a fault for is in its row of the table. -/
theorem eachInstructionRaisesOnlyItsFaults : Obligations.EachInstructionRaisesOnlyItsFaults :=
  fun _ _ _ _ e => (exec_raises e).code

/-- Settles O41: a load that exists is the load shape, which after its checks is refused for want of a byte. -/
theorem loadsOfValuelessBytesAreRefused : Obligations.LoadsOfValuelessBytesAreRefused := by
  intro x h i size off access wf accessible valueless
  rcases hartMeaning_access access wf with ⟨-, rd, -, run | run⟩ | ⟨store, -⟩
  · exact exec_eq_refused.mpr (run.trans (Hart.gpLoad_of_valueless accessible valueless))
  · exact exec_eq_refused.mpr (run.trans (Hart.gpLoad_of_valueless accessible valueless))
  · cases store

/-- Settles O4: past the fetch, the decoding and the check of the tier nothing is left of a step but the instruction. -/
theorem stepRunsTheDecodedInstruction : Obligations.StepRunsTheDecodedInstruction :=
  fun _ _ _ _ hf hd ht => step_of_fetches hf hd ht

end

/-! # Proofs for the reset and hazards family: the end state, and a branch to itself -/

namespace Sys2Proof.Machine

variable {x : XLen} {h : Hart x} {i : Instr} {insn : BitVec 32} {c : Prop} [Decidable c]

/-- Every `ADMIT_TIER` admits the instructions of tier S, of which each branch is one (rule R3). -/
theorem admits_tier_s (a : AdmitTier) : a.admits .s = true := by cases a <;> rfl

@[simp] theorem branchOffset_zero (x : XLen) : branchOffset x 0#10 = 0#x.bits := by cases x <;> decide

@[simp] theorem Hart.setPc_self (h : Hart x) : h.setPc h.pc = h := rfl

section
variable (run : hartMeaning i h = h.branch (decide c) (branchOffset x 0)) (taken : c)
  (aligned : h.pc.toNat % h.launch.ialign.bytes = 0)
include run taken aligned

/-- A taken branch with offset 0 sets the pc to itself (rule R120). -/
theorem exec_taken_self_branch : exec i ⟨x, h⟩ = .next ⟨x, h⟩ := by
  have target : h.pc + branchOffset x 0 = h.pc := by simp
  rw [exec_branch_of_aligned run fun _ => target.symm ▸ aligned, if_pos taken, target, Hart.setPc_self]

theorem step_taken_self_branch (hf : h.Fetches insn)
    (hd : decode x h.launch.lwugpOnRv32 h.launch.codes insn = .instr i) (tier : i.tier = .s) :
    step ⟨x, h⟩ = .next ⟨x, h⟩ := by
  have admitted : h.launch.admitTier.admits i.tier = true := tier ▸ admits_tier_s _
  rw [step_of_fetches hf hd admitted, exec_taken_self_branch run taken aligned]

end

end Sys2Proof.Machine

section
open Sys2Proof Sys2Proof.Machine

/-- Settles O30: each branch is the shared shape on its condition, and the bit position of a decoded BBC or BBS exists at
this `XLEN`. -/
theorem takenSelfBranchRepeats : Obligations.TakenSelfBranchRepeats := by
  intro x h insn i hf aligned hd branch
  obtain ⟨-, positions, -⟩ := wellFormed_of_decode hd
  obtain ⟨rs1, ⟨cimm, ⟨rfl, taken⟩ | ⟨rfl, taken⟩⟩ | ⟨cimm, ⟨rfl, taken⟩ | ⟨rfl, taken⟩⟩⟩ := branch
  case inl.inl =>
    have below := positions cimm (List.mem_singleton_self _)
    exact step_taken_self_branch (hartMeaning_bbc below) taken aligned hf hd rfl
  case inl.inr =>
    have below := positions cimm (List.mem_singleton_self _)
    exact step_taken_self_branch (hartMeaning_bbs below) taken aligned hf hd rfl
  case inr.inl => exact step_taken_self_branch (hartMeaning_beqc cimm) taken aligned hf hd rfl
  case inr.inr => exact step_taken_self_branch (hartMeaning_bnec cimm) taken aligned hf hd rfl

/-- Settles O6, by the law of a step at `END_PC`. -/
theorem stepAtEndPcKeepsTheEndState : Obligations.StepAtEndPcKeepsTheEndState :=
  fun _ ended => step_of_ended ended

end
